-- ==== Sys2Proof/Word.lean ====
section
/-! DEFINITION. The word types of the block: every register and every bus transaction is 32 bits wide
(R6, XLEN), and a byte is 8 bits (R30's byte view). All values are unsigned (R7). -/

namespace Sys2Proof

/-- The 32-bit value of a register or of a bus transaction (R6); bit `n` has the weight `2^n` (R7, D1). -/
abbrev Word := BitVec 32

/-- One byte of the little-endian byte view of the registers (R30). -/
abbrev Byte := BitVec 8

end Sys2Proof
end

