-- ==== Sys2Proof/Config.lean ====
section
/-! DEFINITION. The parameters of the block that the spec leaves OPEN (R6, R11), each with the constraint the
spec puts on it and no other, and the free values the spec leaves unspecified (R8 `draw`, R24, U7).
Every constant below is opaque: no proof can see a value of it. -/

namespace Sys2Proof

/-- Which of the two designs the driver sequences use (R6, U5); a model supports both. -/
inductive Variant where
  | polling
  | interrupt
  deriving DecidableEq, Repr, Inhabited

/-- The constraint on TICKS_ADDR (R6, D17): none (an abstract port), or the address of a naturally aligned
word outside the register block. -/
def ticksAddrOk (timerBase : Word) : Option Word → Bool
  | none => true
  | some a =>
    a.toNat % 4 == 0 &&
      (decide (a.toNat + 3 < timerBase.toNat) || decide (timerBase.toNat + 15 < a.toNat))

/-- The parameters of R6 that are OPEN. They carry the proof of the spec's own constraint, so that a value
outside it cannot be built; nothing else may be assumed of them. The field defaults only make the type
inhabited: no definition of the model uses them. -/
structure Params where
  /-- TIMER_BASE, the byte address of control_status (D3). -/
  timerBase : Word := 0
  /-- CNT_BITS, the number of implemented low-order bits of reload_value and current_value (D4). -/
  cntBits : Nat := 32
  /-- CALIB_VALUE, what the calibration register reads as (D8). -/
  calibValue : Word := 0
  /-- TICKS_ADDR, where the tick counter cell is visible, or none for the abstract port (D17). -/
  ticksAddr : Option Word := none
  /-- HANDLER_WIRED, whether the timer's vector is registered with the dispatch table (D16, R115). -/
  handlerWired : Bool := false
  /-- F_CORE_HZ, the core clock frequency value that `init` uses (D25). -/
  fCoreHz : Nat := 1
  /-- VARIANT, the delay strategy of the driver sequences (U5). -/
  variant : Variant := .polling
  timerBase_ok : timerBase.toNat % 4 = 0 ∧ timerBase.toNat + 15 < 2 ^ 32 := by decide
  cntBits_ok : 1 ≤ cntBits ∧ cntBits ≤ 32 := by decide
  ticksAddr_ok : ticksAddrOk timerBase ticksAddr = true := by decide
  fCoreHz_ok : 1 ≤ fCoreHz := by decide
  deriving DecidableEq, Repr, Inhabited

/-- The parameters of the machine that stands after power-on (R6: each OPEN one is an argument the model may
not fix). Every state carries its parameters in `State.cfg`, so a statement over all states is one over
all parameters. -/
opaque Config.params : Params

/-- `draw`: the free values of R8, one for each count of the state's counter of draws (R24, R130, U9). -/
opaque Config.draw : Nat → Word

/-- The tick period a delay finds when `init` has never run, less one: a free value (U7: what a sequence used
before `init` finds is any value). -/
opaque Config.periodBeforeInit : Nat

end Sys2Proof
end

