-- ==== Sys2Proof/Syntax.lean ====
section
/-! DEFINITION. The syntax: the four registers (R13), the 18 operations of the opcode table (R47, one constructor
a row), the pure function a MOD takes (R47, R68), the raw forms in which operations arrive (the 40-bit
operation word of R47 and the bus transaction of R46), and the driver sequences of R4 as calls (R54). -/

namespace Sys2Proof

/-- The four registers, in the order of their index (R13). -/
inductive Reg where
  | cs
  | reload
  | current
  | calib
  deriving DecidableEq, Repr

/-- The index `i` of a register (R13). -/
def Reg.index : Reg → Nat
  | .cs => 0
  | .reload => 1
  | .current => 2
  | .calib => 3

/-- The four formats of R47. -/
inductive Format where
  | bus
  | seq
  | port
  | evt
  deriving DecidableEq, Repr

/-- The four agents of R9. -/
inductive Agent where
  | foreground
  | countClock
  | interruptDelivery
  | resetAgent
  deriving DecidableEq, Repr

/-- The function `f : u32 -> u32` of a MOD, which no bit pattern encodes (R47), as plain data: an expression
over the value read. The comparison makes the language complete: every function on words is the value of some
expression (the statement `EveryFunctionIsAnOperand`). -/
inductive Fn where
  /-- The value read (`v` in R54). -/
  | arg
  /-- A constant. -/
  | lit (w : Word)
  | not (a : Fn)
  | and (a b : Fn)
  | or (a b : Fn)
  | xor (a b : Fn)
  | add (a b : Fn)
  | sub (a b : Fn)
  /-- `t` where `a` and `b` have one value, `e` elsewhere. -/
  | ifEq (a b t e : Fn)
  deriving DecidableEq, Repr

/-- The 18 operations, one constructor for each row of the opcode table (R47). -/
inductive Instr where
  /-- `RD.CS` (R60) -/
  | rdCs
  /-- `RD.RELOAD` (R62) -/
  | rdReload
  /-- `RD.CURRENT` (R64) -/
  | rdCurrent
  /-- `RD.CALIB` (R66) -/
  | rdCalib
  /-- `WR.CS` (R61) -/
  | wrCs (wdata : Word)
  /-- `WR.RELOAD` (R63) -/
  | wrReload (wdata : Word)
  /-- `WR.CURRENT` (R65) -/
  | wrCurrent (wdata : Word)
  /-- `WR.CALIB` (R67) -/
  | wrCalib (wdata : Word)
  /-- `MOD.CS` (R68) -/
  | modCs (f : Fn)
  /-- `MOD.RELOAD` (R69) -/
  | modReload (f : Fn)
  /-- `MOD.CURRENT` (R70) -/
  | modCurrent (f : Fn)
  /-- `MOD.CALIB` (R71) -/
  | modCalib (f : Fn)
  /-- `RD.TICKS` (R72) -/
  | rdTicks
  /-- `TICK.CORE` (R76) -/
  | tickCore
  /-- `TICK.REF` (R77) -/
  | tickRef
  /-- `IRQ.TAKE` (R86) -/
  | irqTake
  /-- `IRQ.SPUR` (R87) -/
  | irqSpur
  /-- `RESET` (R130) -/
  | reset
  deriving DecidableEq, Repr

/-- `RD` of a register (R47, R54). -/
def Instr.rd : Reg → Instr
  | .cs => .rdCs
  | .reload => .rdReload
  | .current => .rdCurrent
  | .calib => .rdCalib

/-- `WR` of a register (R47, R54). -/
def Instr.wr : Reg → Word → Instr
  | .cs => .wrCs
  | .reload => .wrReload
  | .current => .wrCurrent
  | .calib => .wrCalib

/-- `MOD` of a register (R47, R54). -/
def Instr.md : Reg → Fn → Instr
  | .cs => .modCs
  | .reload => .modReload
  | .current => .modCurrent
  | .calib => .modCalib

/-- The format of an operation (R47). -/
def Instr.format : Instr → Format
  | .rdCs | .rdReload | .rdCurrent | .rdCalib => .bus
  | .wrCs _ | .wrReload _ | .wrCurrent _ | .wrCalib _ => .bus
  | .modCs _ | .modReload _ | .modCurrent _ | .modCalib _ => .seq
  | .rdTicks => .port
  | .tickCore | .tickRef | .irqTake | .irqSpur | .reset => .evt

/-- The agent that issues an operation (R9, R47 "issued by"). -/
def Instr.agent : Instr → Agent
  | .rdCs | .rdReload | .rdCurrent | .rdCalib => .foreground
  | .wrCs _ | .wrReload _ | .wrCurrent _ | .wrCalib _ => .foreground
  | .modCs _ | .modReload _ | .modCurrent _ | .modCalib _ => .foreground
  | .rdTicks => .foreground
  | .tickCore | .tickRef => .countClock
  | .irqTake | .irqSpur => .interruptDelivery
  | .reset => .resetAgent

/-- Whether an operation reads control_status, and so consumes the count flag (R15). -/
def Instr.readsCs : Instr → Bool
  | .rdCs | .modCs _ => true
  | _ => false

/-- Whether an operation is a count pulse (R76, R77). -/
def Instr.isPulse : Instr → Bool
  | .tickCore | .tickRef => true
  | _ => false

/-- An operation word as it arrives: the 40-bit value `OPSEL ++ wdata` (R47), and beside it the function of a
MOD, "that no bit pattern encodes"; a word of any other operation comes with `arg`. -/
structure OpWord where
  bits : BitVec 40
  fn : Fn := .arg
  deriving DecidableEq, Repr

/-- OPSEL, bits 39:32 of the operation word (R47). -/
def OpWord.selector (w : OpWord) : BitVec 8 := w.bits.extractLsb' 32 8

/-- The write data, bits 31:0 of the operation word (R47). -/
def OpWord.wdata (w : OpWord) : Word := w.bits.extractLsb' 0 32

/-- A bus transaction (R46): `we`, the byte address, the size in bytes, and the write data of a write. -/
inductive BusReq where
  | read (addr : Word) (size : Nat)
  | write (addr : Word) (size : Nat) (wdata : Word)
  deriving DecidableEq, Repr

/-- The byte address of a bus transaction (R46). -/
def BusReq.addr : BusReq → Word
  | .read a _ => a
  | .write a _ _ => a

/-- The size of a bus transaction in bytes (R46). -/
def BusReq.size : BusReq → Nat
  | .read _ n => n
  | .write _ n _ => n

/-- `we` of a bus transaction (R46). -/
def BusReq.isWrite : BusReq → Bool
  | .read _ _ => false
  | .write _ _ _ => true

/-- `wdata` of a bus transaction, zero for a read, which has none (R46, R47). -/
def BusReq.wdata : BusReq → Word
  | .read _ _ => 0
  | .write _ _ d => d

/-- The driver sequences (R4, R54): the names the document gives its software operations, and `ticks` (R102).
`value` is the data of a WR, 32 bits wide (R97, R63). That `tickIntervalMs` and `ms` are 32-bit words is a DESIGN
CHOICE of the model's, unsafe (log entry 24): the spec gives a width to the sequences' locals only, and R106 admits
an interval of 2^32 where F_CORE_HZ div 1000 = 1 and CNT_BITS = 32. -/
inductive Call where
  /-- `new()` (R94) -/
  | new
  /-- `init(tick_interval_ms)` (R95) -/
  | init (tickIntervalMs : Word)
  /-- `has_wrapped()` (R96) -/
  | hasWrapped
  /-- `set_reload(value)` (R97) -/
  | setReload (value : Word)
  /-- `enable_counter()` (R98) -/
  | enableCounter
  /-- `disable_counter()` (R99) -/
  | disableCounter
  /-- `enable_interrupt()` (R100) -/
  | enableInterrupt
  /-- `disable_interrupt()` (R101) -/
  | disableInterrupt
  /-- `ticks()` (R102) -/
  | ticks
  /-- `delay_ms(ms)` (R103, R104) -/
  | delayMs (ms : Word)
  deriving DecidableEq, Repr

end Sys2Proof
end

