-- ==== Sys2Proof/WellFormed.lean ====
section
/-! DEFINITION. What a well-formed operation word and a well-formed bus transaction are. Every term of `Instr` is an
operation of the table (its operands are 32-bit words and pure functions, all of them legal, R61 to R71), so
the checks are on the raw forms in which operations arrive. -/

namespace Sys2Proof

/-- The 18 selector values of the opcode table (R47). -/
def selectors : List (BitVec 8) :=
  [0x00, 0x04, 0x08, 0x0C, 0x10, 0x14, 0x18, 0x1C] ++ [0x30, 0x34, 0x38, 0x3C] ++ [0x40] ++
    [0x80, 0x81, 0x82, 0x83, 0x84]

/-- `kind` of a selector, bits 7:5 (R47). -/
def selectorKind (sel : BitVec 8) : BitVec 3 := sel.extractLsb' 5 3

/-- `we` of a selector, bit 4 (R47). -/
def selectorWe (sel : BitVec 8) : Bool := sel.getLsbD 4

/-- Whether the selector is of a `WR` operation: kind 000 with `we` = 1 (R47). -/
def selectorIsWrite (sel : BitVec 8) : Bool := selectorKind sel == 0 && selectorWe sel

/-- Whether the selector is of a `MOD` operation: kind 001 (R47). -/
def selectorIsModify (sel : BitVec 8) : Bool := selectorKind sel == 1

/-- A well-formed operation word: its selector is in the table (R52); its write data is zero unless it is a
`WR`, and it comes with a function only if it is a `MOD` (R47). -/
def OpWord.wellFormed (w : OpWord) : Bool :=
  selectors.contains w.selector &&
    (w.wdata == 0 || selectorIsWrite w.selector) &&
    (w.fn == .arg || selectorIsModify w.selector)

/-- Whether an address lies in the register block, `[TIMER_BASE, TIMER_BASE + 0xF]` (R46). -/
def inBlock (cfg : Params) (addr : Word) : Bool :=
  decide (cfg.timerBase.toNat ≤ addr.toNat) && decide (addr.toNat ≤ cfg.timerBase.toNat + 15)

/-- `off[3:0]` of an address in the block (R46). -/
def blockOffset (cfg : Params) (addr : Word) : BitVec 4 := (addr - cfg.timerBase).setWidth 4

/-- A well-formed bus transaction: 4 bytes (R32), at one of the four register addresses (R31), or a read of the
tick counter cell (R35, R72). -/
def BusReq.wellFormed (cfg : Params) (t : BusReq) : Bool :=
  t.size == 4 &&
    if inBlock cfg t.addr then (blockOffset cfg t.addr).toNat % 4 == 0
    else cfg.ticksAddr == some t.addr && !t.isWrite

end Sys2Proof
end

