-- ==== Sys2Proof/Decode.lean ====
section
/-! DEFINITION. Decoding, total on any operation word and any bus transaction, rejecting by name (R48, R51, R52), and
the encoder beside it (R47). -/

namespace Sys2Proof

/-- Why a raw form is no operation. -/
inductive DecodeError where
  /-- A selector that matches no row of the table (R52 (1), U13). -/
  | unknownSelector
  /-- An access inside the block at an address that is no register's: `refuse(misaligned)` (R31, R52 (1)). -/
  | misaligned
  /-- Write data on an operation other than `WR` (R47: it "is zero otherwise"). -/
  | strayData
  /-- A function beside an operation other than `MOD` (R47). -/
  | strayFunction
  /-- An access of another size than 4 bytes: `refuse(width)` (R32). -/
  | width
  /-- An access outside the map: `refuse(outside_block)` (R36, U6). -/
  | outsideBlock
  /-- A write to the tick counter cell, which has no write port (R35, R72, D33); the refusal is the model's DESIGN
  CHOICE, safe (log entry 13). -/
  | ticksWrite
  deriving DecidableEq, Repr

/-- An operation without encoded operands: its write data is zero and it takes no function (R47). -/
def decodePlain (d : Word) (f : Fn) (i : Instr) : Except DecodeError Instr :=
  if d ≠ 0 then .error .strayData
  else if f ≠ .arg then .error .strayFunction
  else .ok i

/-- A `WR` operation: its write data is any word (R47, R49). -/
def decodeWrite (d : Word) (f : Fn) (k : Word → Instr) : Except DecodeError Instr :=
  if f ≠ .arg then .error .strayFunction else .ok (k d)

/-- A `MOD` operation: it takes the function beside the word and no data (R47). -/
def decodeModify (d : Word) (f : Fn) (k : Fn → Instr) : Except DecodeError Instr :=
  if d ≠ 0 then .error .strayData else .ok (k f)

/-- The table of R47 by selector, and R52 (1) for every other selector. -/
def decodeParts (sel : BitVec 8) (d : Word) (f : Fn) : Except DecodeError Instr :=
  match sel with
  | 0x00#8 => decodePlain d f .rdCs
  | 0x04#8 => decodePlain d f .rdReload
  | 0x08#8 => decodePlain d f .rdCurrent
  | 0x0C#8 => decodePlain d f .rdCalib
  | 0x10#8 => decodeWrite d f .wrCs
  | 0x14#8 => decodeWrite d f .wrReload
  | 0x18#8 => decodeWrite d f .wrCurrent
  | 0x1C#8 => decodeWrite d f .wrCalib
  | 0x30#8 => decodeModify d f .modCs
  | 0x34#8 => decodeModify d f .modReload
  | 0x38#8 => decodeModify d f .modCurrent
  | 0x3C#8 => decodeModify d f .modCalib
  | 0x40#8 => decodePlain d f .rdTicks
  | 0x80#8 => decodePlain d f .tickCore
  | 0x81#8 => decodePlain d f .tickRef
  | 0x82#8 => decodePlain d f .irqTake
  | 0x83#8 => decodePlain d f .irqSpur
  | 0x84#8 => decodePlain d f .reset
  | sel => .error (if selectorKind sel = 0 then .misaligned else .unknownSelector)

/-- The decoder of operation words (R47, R51). -/
def decode (w : OpWord) : Except DecodeError Instr := decodeParts w.selector w.wdata w.fn

/-- The selector of a bus transaction on the block: `0b000 ++ we ++ off` (R47, R51). -/
def busSelector (we : Bool) (off : BitVec 4) : BitVec 8 := 0#3 ++ BitVec.ofBool we ++ off

/-- The decoder of bus transactions (R46, R51), with the address map of R35. -/
def decodeBus (cfg : Params) (t : BusReq) : Except DecodeError Instr :=
  if inBlock cfg t.addr then
    if t.size ≠ 4 then .error .width
    else decode ⟨busSelector t.isWrite (blockOffset cfg t.addr) ++ t.wdata, .arg⟩
  else if cfg.ticksAddr = some t.addr then
    if t.size ≠ 4 then .error .width
    else if t.isWrite then .error .ticksWrite
    else .ok .rdTicks
  else .error .outsideBlock

/-- OPSEL of an operation (R47). -/
def Instr.opsel : Instr → BitVec 8
  | .rdCs => 0x00
  | .rdReload => 0x04
  | .rdCurrent => 0x08
  | .rdCalib => 0x0C
  | .wrCs _ => 0x10
  | .wrReload _ => 0x14
  | .wrCurrent _ => 0x18
  | .wrCalib _ => 0x1C
  | .modCs _ => 0x30
  | .modReload _ => 0x34
  | .modCurrent _ => 0x38
  | .modCalib _ => 0x3C
  | .rdTicks => 0x40
  | .tickCore => 0x80
  | .tickRef => 0x81
  | .irqTake => 0x82
  | .irqSpur => 0x83
  | .reset => 0x84

/-- The write data an operation word of the operation carries: a `WR`'s operand, zero otherwise (R47). -/
def Instr.encodedData : Instr → Word
  | .wrCs d | .wrReload d | .wrCurrent d | .wrCalib d => d
  | _ => 0

/-- The function that stands beside the operation word: a `MOD`'s operand (R47). -/
def Instr.encodedFn : Instr → Fn
  | .modCs f | .modReload f | .modCurrent f | .modCalib f => f
  | _ => .arg

/-- The encoder: the operation word `OPSEL ++ wdata` (R47) and the function beside it. -/
def encode (i : Instr) : OpWord := ⟨i.opsel ++ i.encodedData, i.encodedFn⟩

/-- The operation word that the opcode table's numbering calls `w`: the table gives a row the 8 bits of OPSEL
as bits 7:0, and what it numbers from 8 on is the write data, so the selector is the low byte and the data
the 32 bits above it. No function stands beside a table word, so a `MOD` gets the identity. -/
def tableOpWord (nbits w : Nat) : OpWord :=
  ⟨BitVec.ofNat 8 (w % 2 ^ nbits) ++ BitVec.ofNat 32 (w % 2 ^ nbits / 256), .arg⟩

/-- The instruction the decoder reads from an opcode-table word of `nbits` bits. -/
def decodeTableWord (nbits w : Nat) : Option Instr :=
  match decode (tableOpWord nbits w) with
  | .ok i => some i
  | .error _ => none

end Sys2Proof
end

