-- ==== Sys2Proof/Machine/Operands.lean ====
section
/-! DEFINITION. Operand assembly: the fields a write takes from its data (R49), the value of a MOD's function
(R47), and the arithmetic on register values (R85, R89, R106). -/

namespace Sys2Proof

/-- The value of a MOD's function on the word read (R42: "the pure function `f` applied by the foreground"). -/
def Fn.eval : Fn → Word → Word
  | .arg, v => v
  | .lit w, _ => w
  | .not a, v => ~~~(a.eval v)
  | .and a b, v => a.eval v &&& b.eval v
  | .or a b, v => a.eval v ||| b.eval v
  | .xor a b, v => a.eval v ^^^ b.eval v
  | .add a b, v => a.eval v + b.eval v
  | .sub a b, v => a.eval v - b.eval v
  | .ifEq a b t e, v => if a.eval v = b.eval v then t.eval v else e.eval v

namespace Machine

/-- `zext_32(wdata[CNT_BITS-1:0])`: the low CNT_BITS bits of a word (R17, R49). -/
def truncCnt (cfg : Params) (w : Word) : Word := (w.setWidth cfg.cntBits).setWidth 32

/-- ENABLE of the data written to control_status, `wdata[0]` (R49). -/
def dataEnable (w : Word) : Bool := w.getLsbD 0

/-- TICKINT of the data written to control_status, `wdata[1]` (R49). -/
def dataTickint (w : Word) : Bool := w.getLsbD 1

/-- CLKSOURCE of the data written to control_status, `wdata[2]` (R49). -/
def dataClksource (w : Word) : Bool := w.getLsbD 2

/-- `TICKUPD`, the tick-counter update function (R85), in the form of the document's explicit test. -/
def tickUpd (t : Word) : Word := if t = 0xFFFFFFFF then 0x00000000 else t + 1

/-- `ELAPSED`, the wraparound-aware difference of two readings of the tick counter (R89). -/
def elapsed (a b : Word) : Word := b - a

/-- `RELOADVAL`, the reload computation on mathematical integers (R106, D25); none outside the preconditions,
where the sequence is refused. -/
def reloadVal (cfg : Params) (tickIntervalMs : Nat) : Option Nat :=
  if 1 ≤ tickIntervalMs ∧ 1000 ≤ cfg.fCoreHz ∧
      tickIntervalMs * (cfg.fCoreHz / 1000) ≤ 2 ^ cfg.cntBits then
    some (tickIntervalMs * (cfg.fCoreHz / 1000) - 1)
  else none

end Machine
end Sys2Proof
end

