-- ==== Sys2Proof/Machine/Flags.lean ====
section
/-! DEFINITION. The block's one flag (R15): the packing of control_status, in which it is bit 16 (R12), and the
wrap-detect flag extractor (R79). -/

namespace Sys2Proof.Machine

/-- The view of control_status, bit for bit as R12 writes it: bits 31:17 and 15:3 zero, COUNTFLAG bit 16,
CLKSOURCE bit 2, TICKINT bit 1, ENABLE bit 0. -/
def packCs (countflag clksource tickint enable : Bool) : Word :=
  0#15 ++ BitVec.ofBool countflag ++ 0#13 ++ BitVec.ofBool clksource ++ BitVec.ofBool tickint ++
    BitVec.ofBool enable

/-- `WRAPDET`, the wrap-detect flag extractor: bit 16 of a value read from control_status (R79). -/
def wrapDet (v : Word) : Bool := v.getLsbD 16

end Sys2Proof.Machine
end

