-- ==== Sys2Proof/Machine/State.lean ====
section
/-! DEFINITION. The state of the machine as plain data: the block (R10), the interrupt enable that gates delivery (R114),
the foreground with what it has in progress (R9, R42, R93), the inputs the agents will deliver, and the
parameters of the run (R6, R11); the reasons a step can stop; and the state after reset (R24). -/

namespace Sys2Proof.Machine

/-- One access or loop the foreground has in progress: the write half of a MOD (R42), and what is left of a
driver sequence (`43_driver_sequences.md`), with its local variables (R11). -/
inductive Pending where
  /-- Issue `RD` of a register. -/
  | read (r : Reg)
  /-- Issue `WR` of a register; also the write half of a `MOD` whose function has been applied (R42). -/
  | write (r : Reg) (v : Word)
  /-- Issue `MOD` of a register: the read half comes next. -/
  | modify (r : Reg) (f : Fn)
  /-- Issue `RD.TICKS`. -/
  | readTicks
  /-- The polling delay: `n` set flags are still to be observed (R103). -/
  | poll (n : Nat)
  /-- The interrupt-driven delay before its first sample (R104). -/
  | sample (needed : Nat)
  /-- The interrupt-driven delay: `n` of `needed` changes observed, `last` the value last seen (R104). -/
  | watch (needed n : Nat) (last : Word)
  deriving DecidableEq, Repr

/-- What the outside delivers next. A list of inputs is one interleaving of the agents' steps (R9, R39). -/
inductive Input where
  /-- One agent issues the operation of a word (R9, R47). -/
  | op (w : OpWord)
  /-- The bus master issues a bus transaction (R46). -/
  | bus (t : BusReq)
  /-- Two operations in one clock cycle (R39). -/
  | coincide (a b : OpWord)
  /-- The foreground starts a driver sequence (R54). -/
  | call (c : Call)
  /-- The foreground takes its next turn in what it has in progress. -/
  | resume
  /-- The environment sets the processor's global interrupt enable (R114, D16). -/
  | gie (level : Bool)
  deriving DecidableEq, Repr

/-- Why the machine would stop with a fault: never. The block raises no exception and no operation fails
(R110: "No error conditions"; 93: "No item is treated as `fault`"), so no constructor raises one, and that is
safe: every stop of the model is a refusal. -/
inductive Fault where
  deriving DecidableEq, Repr

/-- Why a step has no meaning. Every one is safe: the run stops where the spec gives no step. -/
inductive Refusal where
  /-- Raised by an arm of `exec` whose instruction has no meaning in the model yet; safe. -/
  | notModelled (mnemonic : String)
  /-- Raised by `step` on a raw form that is no operation: `refuse` of R31, R32, R36, R47, R52; safe. -/
  | undecodable (why : DecodeError)
  /-- Raised by `IRQ.TAKE` where its enabling condition is false: "it is not a no-op, it has no step" (R86);
  safe. -/
  | takeNotEnabled
  /-- Raised by `IRQ.SPUR` where GIE = 0: it has no step (R87, R114); safe. -/
  | spurNotEnabled
  /-- Raised by `new()` where a binding is live: `refuse(second_owner)` (R43, U1); safe. -/
  | secondOwner
  /-- Raised by `init` outside the preconditions of the reload computation (R106, U12); safe. -/
  | reloadPrecondition
  /-- Raised by `delay_ms` with the tick period 0: a division by zero (R103, U16); safe. -/
  | zeroPeriod
  deriving DecidableEq, Repr

/-- The whole state. -/
structure State where
  /-- The parameters of the run, constant in it (R6, R11). -/
  cfg : Params
  /-- `S.enable`, control_status bit 0 (R10). -/
  enable : Bool
  /-- `S.tickint`, control_status bit 1 (R10). -/
  tickint : Bool
  /-- `S.clksource`, control_status bit 2: true for the core clock (R10, R26). -/
  clksource : Bool
  /-- `S.countflag`, control_status bit 16 (R10, R15). -/
  countflag : Bool
  /-- `S.reload`, zero-extended from CNT_BITS to 32 bits (R10, R12). -/
  reload : Word
  /-- `S.current`, zero-extended from CNT_BITS to 32 bits (R10, R12). -/
  current : Word
  /-- `S.ticks`, the Tick Counter (R10, R21). -/
  ticks : Word
  /-- `S.irq_pending`, the hidden request (R10, R23). -/
  irqPending : Bool
  /-- `GIE`, the processor's global interrupt enable, an input of the environment (R114). -/
  gie : Bool
  /-- The value the last read returned to the foreground: the output `rdata` (R46, R55). -/
  rdata : Word
  /-- Bit 16 of what the last read of control_status returned: the output `has_wrapped` (R55). -/
  hasWrapped : Bool
  /-- The tick period `P` in milliseconds that `init` was given, a variable of the Tick Timer (R11, D26). -/
  period : Nat
  /-- Whether a mutable binding to the register space is live (R43, R94). -/
  owned : Bool
  /-- What the foreground has in progress, next first (R42, R93). -/
  foreground : List Pending
  /-- What the agents will deliver, next first (R9, R39). -/
  inputs : List Input
  /-- How many values `draw` has given (R8): the next is `Config.draw draws`. -/
  draws : Nat
  deriving DecidableEq, Repr

/-- The machine right after reset (R24): the block's control bits, flag, request and Tick Counter 0, RELOAD and
CURRENT two free values of CNT_BITS bits; the parameters whatever they are (R6). The fields outside the block
have the values of the assumption log (8, 9, 10). -/
def State.reset : State where
  cfg := Config.params
  enable := false
  tickint := false
  clksource := false
  countflag := false
  reload := truncCnt Config.params (Config.draw 0)
  current := truncCnt Config.params (Config.draw 1)
  ticks := 0
  irqPending := false
  gie := true
  rdata := 0
  hasWrapped := false
  period := Config.periodBeforeInit + 1
  owned := false
  foreground := []
  inputs := []
  draws := 2

end Sys2Proof.Machine
end

