-- ==== Sys2Proof/Machine/Ops.lean ====
section
/-! DEFINITION. The named operations over the state, each written once: the register views and the two bus
accesses (R12, R33, R49, R50), the read half of a MOD (R42), the count step (R75), the interrupt entry,
handler and return (R86, R117, R118), the block's reset (R130), the byte view (R30) and the ports (R55). -/

namespace Sys2Proof.Machine

/-- `x[i]`, the 32-bit view of a register, with no side effect (R12). -/
def State.view (s : State) : Reg → Word
  | .cs => packCs s.countflag s.clksource s.tickint s.enable
  | .reload => s.reload
  | .current => s.current
  | .calib => s.cfg.calibValue

/-- One `RD` of a register: it returns the view; a read of control_status also drives the output `has_wrapped` and
clears the count flag at the same instant (R33, R34, R50, R55). -/
def busRead (r : Reg) (s : State) : State :=
  match r with
  | .cs => { s with rdata := s.view .cs, hasWrapped := wrapDet (s.view .cs), countflag := false }
  | .reload => { s with rdata := s.view .reload }
  | .current => { s with rdata := s.view .current }
  | .calib => { s with rdata := s.view .calib }

/-- One `WR` of a register: it takes the fields of R49 from the data and drops every other bit; the read-only
calibration register drops them all (R20, R37). -/
def busWrite (r : Reg) (v : Word) (s : State) : State :=
  match r with
  | .cs => { s with enable := dataEnable v, tickint := dataTickint v, clksource := dataClksource v }
  | .reload => { s with reload := truncCnt s.cfg v }
  | .current => { s with current := truncCnt s.cfg v }
  | .calib => s

/-- The read half of a `MOD` (R42): one `RD`, then the foreground applies `f` to the value read and has the `WR`
of the result in progress. It is the next thing the foreground does; steps of other agents may come first. -/
def modifyRead (r : Reg) (f : Fn) (s : State) : State :=
  { busRead r s with foreground := .write r (f.eval (s.view r)) :: s.foreground }

/-- The atomic read of the tick counter cell (R34, R72). -/
def readTicks (s : State) : State := { s with rdata := s.ticks }

/-- `COUNT(S)`, the count step, with the wrap event in it (R75). -/
def countStep (s : State) : State :=
  if s.enable = false then s
  else if s.current = 0 then
    { s with current := s.reload, countflag := true, irqPending := s.tickint || s.irqPending }
  else { s with current := s.current - 1 }

/-- One pulse of a clock: the count step if CLKSOURCE selects that clock, nothing otherwise (R26, R76, R77). -/
def clockPulse (coreClock : Bool) (s : State) : State :=
  if s.clksource = coreClock then countStep s else s

/-- Entry of the wrap interrupt: the request is cleared; the block saves nothing and switches no mode (R117). -/
def enterInterrupt (s : State) : State := { s with irqPending := false }

/-- The default handler, which "silently discards" an interrupt and "performs no work" (R87, R119). -/
def defaultHandler (s : State) : State := s

/-- The handler that a delivery of the wrap interrupt runs: the timer's own if it is registered, else the default
one (R86, R115). -/
def runHandler (s : State) : State :=
  if s.cfg.handlerWired then { s with ticks := tickUpd s.ticks } else defaultHandler s

/-- Return from the handler to the boundary it preempted: nothing of the block changes (R118). -/
def returnFromHandler (s : State) : State := s

/-- Taking the wrap interrupt, one atomic step: entry, handler, return (R86, R117, R118, D15). -/
def takeInterrupt (s : State) : State := returnFromHandler (runHandler (enterInterrupt s))

/-- Reset of the block (R130): RELOAD and CURRENT are the next two draws. -/
def resetBlock (s : State) : State :=
  { s with
    enable := false, tickint := false, clksource := false, countflag := false, irqPending := false,
    ticks := 0, reload := truncCnt s.cfg (Config.draw s.draws),
    current := truncCnt s.cfg (Config.draw (s.draws + 1)), draws := s.draws + 2 }

/-- The register at an index (R13, R48). -/
def regOfIndex : Nat → Option Reg
  | 0 => some .cs
  | 1 => some .reload
  | 2 => some .current
  | 3 => some .calib
  | _ => none

/-- The byte view (R30): the byte at `TIMER_BASE + 4*i + k` is bits `8k+7:8k` of register `i`. No access of the
block observes it. -/
def byteAt (s : State) (addr : Nat) : Option Byte :=
  if s.cfg.timerBase.toNat ≤ addr then
    let off := addr - s.cfg.timerBase.toNat
    (regOfIndex (off / 4)).map fun r => (s.view r).extractLsb' (8 * (off % 4)) 8
  else none

/-- The output `irq` (R55): the level of the request. -/
def irqLine (s : State) : Bool := s.irqPending

/-- The output `ticks_out` (R55). -/
def ticksOut (s : State) : Word := s.ticks

/-- The output `has_wrapped` (R55): bit 16 of the value that the last read of control_status returned. -/
def hasWrappedOut (s : State) : Bool := s.hasWrapped

/-- The environment sets the global interrupt enable (R114). -/
def setGie (level : Bool) (s : State) : State := { s with gie := level }

end Sys2Proof.Machine
end

