-- ==== Sys2Proof/Machine/BusRead.lean ====
section
/-! DEFINITION. The meanings of the four register reads and of the tick counter read (R60, R62, R64, R66, R72). -/

namespace Sys2Proof.Machine

/-- `RD.CS`: returns control_status with the flag as it is now, and clears the flag (R60). -/
def execRdCs (s : State) : Host.Outcome State Fault Refusal := .next (busRead .cs s)

/-- `RD.RELOAD` (R62). -/
def execRdReload (s : State) : Host.Outcome State Fault Refusal := .next (busRead .reload s)

/-- `RD.CURRENT` (R64). -/
def execRdCurrent (s : State) : Host.Outcome State Fault Refusal := .next (busRead .current s)

/-- `RD.CALIB` (R66). -/
def execRdCalib (s : State) : Host.Outcome State Fault Refusal := .next (busRead .calib s)

/-- `RD.TICKS` (R72). -/
def execRdTicks (s : State) : Host.Outcome State Fault Refusal := .next (readTicks s)

end Sys2Proof.Machine
end

