-- ==== Sys2Proof/Machine/BusWrite.lean ====
section
/-! DEFINITION. The meanings of the four register writes (R61, R63, R65, R67). -/

namespace Sys2Proof.Machine

/-- `WR.CS`: sets ENABLE, TICKINT and CLKSOURCE, and nothing else (R61). -/
def execWrCs (wdata : Word) (s : State) : Host.Outcome State Fault Refusal := .next (busWrite .cs wdata s)

/-- `WR.RELOAD` (R63). -/
def execWrReload (wdata : Word) (s : State) : Host.Outcome State Fault Refusal :=
  .next (busWrite .reload wdata s)

/-- `WR.CURRENT`: the count goes on from the value written (R65). -/
def execWrCurrent (wdata : Word) (s : State) : Host.Outcome State Fault Refusal :=
  .next (busWrite .current wdata s)

/-- `WR.CALIB`: accepted and dropped (R67). -/
def execWrCalib (wdata : Word) (s : State) : Host.Outcome State Fault Refusal :=
  .next (busWrite .calib wdata s)

end Sys2Proof.Machine
end

