-- ==== Sys2Proof/Machine/Count.lean ====
section
/-! DEFINITION. The meanings of the two count pulses (R76, R77), and the wrap event as a predicate (R75). -/

namespace Sys2Proof.Machine

/-- `TICK.CORE`: one pulse of the core clock, which CLKSOURCE = 1 selects (R76). -/
def execTickCore (s : State) : Host.Outcome State Fault Refusal := .next (clockPulse true s)

/-- `TICK.REF`: one pulse of the external reference, which CLKSOURCE = 0 selects (R77). -/
def execTickRef (s : State) : Host.Outcome State Fault Refusal := .next (clockPulse false s)

/-- Whether an operation is a pulse of the clock that CLKSOURCE selects (R26, R76, R77). -/
def isSelectedPulse (i : Instr) (s : State) : Bool :=
  match i with
  | .tickCore => s.clksource
  | .tickRef => !s.clksource
  | _ => false

/-- A wrap event: a count step taken with ENABLE = 1 and CURRENT = 0 (R75). -/
def isWrapEvent (i : Instr) (s : State) : Bool := isSelectedPulse i s && s.enable && s.current == 0

end Sys2Proof.Machine
end

