-- ==== Sys2Proof/Machine/Interrupt.lean ====
section
/-! DEFINITION. The meanings of the two interrupt deliveries (R86, R87). Where the enabling condition is false the
operation has no step, so the answer is a refusal of its own name. -/

namespace Sys2Proof.Machine

/-- `IRQ.TAKE`: enabled by a request and GIE, it takes the interrupt (R86). -/
def execIrqTake (s : State) : Host.Outcome State Fault Refusal :=
  if s.irqPending && s.gie then .next (takeInterrupt s) else .refused .takeNotEnabled

/-- `IRQ.SPUR`: enabled by GIE, the default handler absorbs an unrelated interrupt (R87). -/
def execIrqSpur (s : State) : Host.Outcome State Fault Refusal :=
  if s.gie then .next (defaultHandler s) else .refused .spurNotEnabled

end Sys2Proof.Machine
end

