-- ==== Sys2Proof/Machine/Modify.lean ====
section
/-! DEFINITION. The meanings of the four read-modify-writes (R68 to R71). A `MOD` is two bus transactions with a gap
for the other agents between them (R42): the meaning takes the read half and leaves the write half in
progress in the foreground, which `step` performs at the foreground's next turn. -/

namespace Sys2Proof.Machine

/-- `MOD.CS` (R68): the read half clears the count flag. -/
def execModCs (f : Fn) (s : State) : Host.Outcome State Fault Refusal := .next (modifyRead .cs f s)

/-- `MOD.RELOAD` (R69). -/
def execModReload (f : Fn) (s : State) : Host.Outcome State Fault Refusal := .next (modifyRead .reload f s)

/-- `MOD.CURRENT` (R70). -/
def execModCurrent (f : Fn) (s : State) : Host.Outcome State Fault Refusal := .next (modifyRead .current f s)

/-- `MOD.CALIB` (R71). -/
def execModCalib (f : Fn) (s : State) : Host.Outcome State Fault Refusal := .next (modifyRead .calib f s)

end Sys2Proof.Machine
end

