-- ==== Sys2Proof/Machine/Reset.lean ====
section
/-! DEFINITION. The meaning of RESET (R130). -/

namespace Sys2Proof.Machine

/-- `RESET`: the block is reset; the foreground, GIE and the parameters are not of the block (R11, R130). -/
def execReset (s : State) : Host.Outcome State Fault Refusal := .next (resetBlock s)

end Sys2Proof.Machine
end

