-- ==== Sys2Proof/Machine/Dispatch.lean ====
section
/-! DEFINITION. One arm per operation of the opcode table (R47). -/

namespace Sys2Proof.Machine

def exec (i : Instr) (s : State) : Host.Outcome State Fault Refusal :=
  match i with
  | .rdCs => Sys2Proof.Machine.execRdCs s
  | .rdReload => Sys2Proof.Machine.execRdReload s
  | .rdCurrent => Sys2Proof.Machine.execRdCurrent s
  | .rdCalib => Sys2Proof.Machine.execRdCalib s
  | .wrCs wdata => Sys2Proof.Machine.execWrCs wdata s
  | .wrReload wdata => Sys2Proof.Machine.execWrReload wdata s
  | .wrCurrent wdata => Sys2Proof.Machine.execWrCurrent wdata s
  | .wrCalib wdata => Sys2Proof.Machine.execWrCalib wdata s
  | .modCs f => Sys2Proof.Machine.execModCs f s
  | .modReload f => Sys2Proof.Machine.execModReload f s
  | .modCurrent f => Sys2Proof.Machine.execModCurrent f s
  | .modCalib f => Sys2Proof.Machine.execModCalib f s
  | .rdTicks => Sys2Proof.Machine.execRdTicks s
  | .tickCore => Sys2Proof.Machine.execTickCore s
  | .tickRef => Sys2Proof.Machine.execTickRef s
  | .irqTake => Sys2Proof.Machine.execIrqTake s
  | .irqSpur => Sys2Proof.Machine.execIrqSpur s
  | .reset => Sys2Proof.Machine.execReset s

end Sys2Proof.Machine
end

