-- ==== Sys2Proof/Machine/Driver.lean ====
section
/-! DEFINITION. The driver sequences (R93 to R106): what each call puts in progress in the foreground, and what one
turn of the foreground does. Every access goes through the operations of `Machine/Ops.lean`. -/

namespace Sys2Proof.Machine

/-- A polling delay with `n` set flags still to observe: over when there are none (R103, D26). -/
def pollRest (n : Nat) : List Pending := if n = 0 then [] else [.poll n]

/-- An interrupt-driven delay with `n` of `needed` changes observed: over when all are (R104, D26). -/
def watchRest (needed n : Nat) (last : Word) : List Pending :=
  if n = needed then [] else [.watch needed n last]

/-- The accesses of `init` (R95): stop and select the core clock; reload; current; enable. -/
def initSequence (irq : Bool) (r : Word) : List Pending :=
  let irqBit : Word := if irq then 1 else 0
  [.write .cs (1 * 4 + irqBit * 2 + 0), .write .reload r, .write .current r,
    .modify .cs (.or (.or .arg (.lit 0x1)) (.lit (irqBit * 2)))]

/-- `init(tick_interval_ms)` (R95, R106): refused outside the preconditions of the reload computation. -/
def startInit (ms : Word) (s : State) : Host.Outcome State Fault Refusal :=
  match reloadVal s.cfg ms.toNat with
  | none => .refused .reloadPrecondition
  | some r =>
    .next { s with
      period := ms.toNat
      foreground := initSequence (s.cfg.variant == .interrupt) (BitVec.ofNat 32 r) ++ s.foreground }

/-- `delay_ms(ms)` by the strategy of VARIANT (R103, R104, R105); integer division truncates. -/
def startDelay (ms : Word) (s : State) : Host.Outcome State Fault Refusal :=
  if s.period = 0 then .refused .zeroPeriod
  else
    match s.cfg.variant with
    | .polling => .next { s with foreground := pollRest (ms.toNat / s.period) ++ s.foreground }
    | .interrupt => .next { s with foreground := .sample (ms.toNat / s.period) :: s.foreground }

/-- `new()` (R94): binds the register space and issues no operation; a second live binding is refused (R43). -/
def startNew (s : State) : Host.Outcome State Fault Refusal :=
  if s.owned then .refused .secondOwner else .next { s with owned := true }

/-- The accesses of the remaining calls, one each (R96 to R102). -/
def callAccess : Call → Option Pending
  | .hasWrapped => some (.read .cs)
  | .setReload v => some (.write .reload v)
  | .enableCounter => some (.modify .cs (.or .arg (.lit 0x00000001)))
  | .disableCounter => some (.modify .cs (.and .arg (.lit 0xFFFFFFFE)))
  | .enableInterrupt => some (.modify .cs (.or .arg (.lit 0x00000002)))
  | .disableInterrupt => some (.modify .cs (.and .arg (.lit 0xFFFFFFFD)))
  | .ticks => some .readTicks
  | .new | .init _ | .delayMs _ => none

/-- Starting a driver sequence: its accesses are put in progress; no operation is issued yet. -/
def startCall (c : Call) (s : State) : Host.Outcome State Fault Refusal :=
  match c with
  | .new => startNew s
  | .init ms => startInit ms s
  | .delayMs ms => startDelay ms s
  | c => .next { s with foreground := (callAccess c).toList ++ s.foreground }

/-- One turn of the polling delay: test the count, then one `has_wrapped()` (R103). -/
def pollTurn (n : Nat) (s : State) : State :=
  if n = 0 then s
  else
    let t := busRead .cs s
    { t with foreground := pollRest (if wrapDet t.rdata then n - 1 else n) ++ t.foreground }

/-- The first sample of the interrupt-driven delay (R104). -/
def sampleTurn (needed : Nat) (s : State) : State :=
  let t := readTicks s
  { t with foreground := watchRest needed 0 t.rdata ++ t.foreground }

/-- One turn of the interrupt-driven delay: test the count, then one read of the counter, which counts if it
differs from the value last seen (R104). -/
def watchTurn (needed n : Nat) (last : Word) (s : State) : State :=
  if n = needed then s
  else
    let t := readTicks s
    { t with
      foreground :=
        (if t.rdata ≠ last then watchRest needed (n + 1) t.rdata else watchRest needed n last) ++
          t.foreground }

/-- What the foreground does in one turn with the first thing it has in progress, `s` being the state without
it. -/
def runPending (p : Pending) (s : State) : State :=
  match p with
  | .read r => busRead r s
  | .write r v => busWrite r v s
  | .modify r f => modifyRead r f s
  | .readTicks => readTicks s
  | .poll n => pollTurn n s
  | .sample needed => sampleTurn needed s
  | .watch needed n last => watchTurn needed n last s

end Sys2Proof.Machine
end

