-- ==== Sys2Proof/Machine/Turn.lean ====
section
/-! DEFINITION. Whose turn it is (R9, R38, R39): the next input, decoded, and the foreground's program order: an access
of the foreground begins only when what it has in progress is complete. -/

namespace Sys2Proof.Machine

/-- What the next step does. `rest` is what is left of the inputs, `ps` what is left of the foreground. -/
inductive Turn where
  /-- No agent takes a step. -/
  | idle
  /-- The foreground has a turn and nothing in progress. -/
  | skip (rest : List Input)
  /-- The environment sets GIE. -/
  | gie (level : Bool) (rest : List Input)
  /-- The foreground goes on with what it has in progress. -/
  | goOn (p : Pending) (ps : List Pending) (rest : List Input)
  /-- The foreground starts a driver sequence. -/
  | call (c : Call) (rest : List Input)
  /-- An agent takes an operation. -/
  | run (i : Instr) (rest : List Input)
  /-- A raw form that is no operation. -/
  | refuse (why : DecodeError)
  deriving DecidableEq, Repr

/-- The turn of a foreground action: it waits until what the foreground has in progress is complete (R38). -/
def foregroundTurn (s : State) (ready : Turn) : Turn :=
  match s.foreground with
  | [] => ready
  | p :: ps => .goOn p ps s.inputs

/-- The turn of an operation word: an event may come at any time, an operation of the foreground in program
order (R38, R39). -/
def operationTurn (s : State) (w : OpWord) (rest : List Input) : Turn :=
  match decode w with
  | .error e => .refuse e
  | .ok i => if i.agent = .foreground then foregroundTurn s (.run i rest) else .run i rest

/-- The turn of a bus transaction (R46). -/
def busTurn (s : State) (t : BusReq) (rest : List Input) : Turn :=
  foregroundTurn s
    (match decodeBus s.cfg t with
    | .error e => .refuse e
    | .ok i => .run i rest)

/-- The order of two operations in one clock cycle: as given, but a read of control_status goes before a count
pulse, so that a wrap event is never lost to it (R39, R116, D13). A pulse that is no wrap event commutes with the
read. -/
def tieOrder (a b : OpWord) : OpWord × OpWord :=
  match decode a, decode b with
  | .ok i, .ok j => if i.isPulse && j.readsCs then (b, a) else (a, b)
  | _, _ => (a, b)

/-- The turn of the foreground (R9). -/
def resumeTurn (s : State) (rest : List Input) : Turn :=
  match s.foreground with
  | [] => .skip rest
  | p :: ps => .goOn p ps rest

/-- Whose turn it is. When no input is left the foreground goes on alone; when it has nothing in progress either,
no agent takes a step. -/
def State.turn (s : State) : Turn :=
  match s.inputs with
  | .op w :: rest => operationTurn s w rest
  | .bus t :: rest => busTurn s t rest
  | .coincide a b :: rest => operationTurn s (tieOrder a b).1 (.op (tieOrder a b).2 :: rest)
  | .call c :: rest => foregroundTurn s (.call c rest)
  | .resume :: rest => resumeTurn s rest
  | .gie level :: rest => .gie level rest
  | [] =>
    match s.foreground with
    | [] => .idle
    | p :: ps => .goOn p ps []

/-- The inputs and the foreground with which the next step runs the operation of a table word: the word is the next
input, and an operation of the foreground finds nothing in progress. -/
def State.place (s : State) (w : OpWord) : State :=
  { s with
    inputs := .op w :: s.inputs
    foreground :=
      match decode w with
      | .ok i => if i.agent = .foreground then [] else s.foreground
      | .error _ => s.foreground }

end Sys2Proof.Machine
end

