-- ==== Sys2Proof/Machine/Step.lean ====
section
/-! DEFINITION. One step of the machine: one step of the agent whose turn it is (R9). -/

namespace Sys2Proof.Machine

/-- One step. -/
def step (s : State) : Host.Outcome State Fault Refusal :=
  match s.turn with
  | .idle => .next s
  | .skip rest => .next { s with inputs := rest }
  | .gie level rest => .next (setGie level { s with inputs := rest })
  | .goOn p ps rest => .next (runPending p { s with foreground := ps, inputs := rest })
  | .call c rest => startCall c { s with inputs := rest }
  | .run i rest => exec i { s with inputs := rest }
  | .refuse why => .refused (.undecodable why)

/-- `s` with the operation of an opcode-table word as the next thing that happens: the block fetches nothing (R14), so
the word is the next input. -/
def State.withFetchWord (s : State) (nbits w : Nat) : State := s.place (tableOpWord nbits w)

end Sys2Proof.Machine
end

