-- ==== Sys2Proof/Safety.lean ====
section
/-! DEFINITION. What claims are stated in: the invariant of the machine (R25), runs of operations and of steps, the wrap
events and handler runs of a run, and what makes an input one of the environment's. -/

namespace Sys2Proof.Machine

/-- A loop the foreground has in progress is not over: a finished one is dropped at once (R103, R104). -/
def Pending.live : Pending → Bool
  | .poll n => decide (0 < n)
  | .watch needed n _ => decide (n < needed)
  | _ => true

/-- The invariant: RELOAD and CURRENT fit their CNT_BITS bits (R25), the tick period is not zero (R106, U16), and
the foreground's loops are live. That control_status has zero in its reserved bits and the flags one bit each is
in the types of the state. -/
def State.Inv (s : State) : Prop :=
  s.reload.toNat < 2 ^ s.cfg.cntBits ∧ s.current.toNat < 2 ^ s.cfg.cntBits ∧ 0 < s.period ∧
    ∀ p ∈ s.foreground, p.live = true

/-- A sequence of operations in the order they take effect, stopping at the first that has no next state. -/
def execAll : List Instr → State → Host.Outcome State Fault Refusal
  | [], s => .next s
  | i :: l, s =>
    match exec i s with
    | .next t => execAll l t
    | .fault r => .fault r
    | .refused r => .refused r

/-- How many operations of a sequence are wrap events (R75). -/
def wrapCount : List Instr → State → Nat
  | [], _ => 0
  | i :: l, s =>
    (if isWrapEvent i s then 1 else 0) +
      match exec i s with
      | .next t => wrapCount l t
      | _ => 0

/-- `k` steps of the machine. -/
def runSteps : Nat → State → Host.Outcome State Fault Refusal
  | 0, s => .next s
  | k + 1, s =>
    match step s with
    | .next t => runSteps k t
    | .fault r => .fault r
    | .refused r => .refused r

/-- At how many of the next `k` steps a property of the state holds just before the step. -/
def countAlong (p : State → Bool) : Nat → State → Nat
  | 0, _ => 0
  | k + 1, s =>
    (if p s then 1 else 0) +
      match step s with
      | .next t => countAlong p k t
      | _ => 0

/-- The next step is the polling delay's read of a set flag: an observation (R103). -/
def observesWrap (s : State) : Bool :=
  match s.turn with
  | .goOn (.poll _) _ _ => s.countflag
  | _ => false

/-- The next step is the interrupt-driven delay's read of a counter that differs from the value last seen: an observed
change (R104). -/
def observesChange (s : State) : Bool :=
  match s.turn with
  | .goOn (.watch needed n last) _ _ => decide (n ≠ needed) && decide (s.ticks ≠ last)
  | _ => false

/-- The next step is a handler run (R86). -/
def runsHandler (s : State) : Bool :=
  match s.turn with
  | .run .irqTake _ => true
  | _ => false

/-- The next step reads control_status: `RD.CS`, the read half of `MOD.CS`, or one of the two in a driver
sequence (R15). -/
def readsCsNext (s : State) : Bool :=
  match s.turn with
  | .run i _ => i.readsCs
  | .goOn (.read .cs) _ _ => true
  | .goOn (.modify .cs _) _ _ => true
  | .goOn (.poll n) _ _ => decide (n ≠ 0)
  | _ => false

/-- The next step is a wrap event (R75). -/
def wrapsNext (s : State) : Bool :=
  match s.turn with
  | .run i _ => isWrapEvent i s
  | _ => false

/-- The next step is the reset of the block (R130). -/
def resetsNext (s : State) : Bool :=
  match s.turn with
  | .run .reset _ => true
  | _ => false

/-- An input that is not an action of the foreground's own: an event, a change of GIE, or the foreground's turn to
go on with what it has in progress. -/
def Input.ofEnvironment : Input → Bool
  | .op w =>
    match decode w with
    | .ok i => decide (i.agent ≠ .foreground)
    | .error _ => false
  | .resume => true
  | .gie _ => true
  | _ => false

/-- An environment input that is no RESET. -/
def Input.noReset (x : Input) : Bool :=
  x.ofEnvironment && decide (x ≠ .op (encode .reset))

/-- An input that is a count pulse or the foreground's turn to go on. -/
def Input.pulseOrResume : Input → Bool
  | .op w => w == encode .tickCore || w == encode .tickRef
  | .resume => true
  | _ => false

end Sys2Proof.Machine
end

