-- ==== Sys2Proof/Certificates/Slice0/Obligations.lean ====
section
/-! DEFINITION. The statements for the provers, in the order of the spec's files. A result of an instruction is stated as
an equation with the whole next state, so each is also the instruction's completion and its frame. -/

open Sys2Proof Sys2Proof.Machine

/-! ### Reset and the invariant (`10_state.md`, `70_reset_and_hazards.md`) -/

/-- R24, the values the spec gives: control bits, flag, request and Tick Counter 0; RELOAD and CURRENT some values of
CNT_BITS bits. -/
def Obligations.ResetStateHasSpecValues : Prop :=
  State.reset.enable = false ∧ State.reset.tickint = false ∧ State.reset.clksource = false ∧
    State.reset.countflag = false ∧ State.reset.irqPending = false ∧ State.reset.ticks = 0 ∧
    State.reset.reload.toNat < 2 ^ State.reset.cfg.cntBits ∧
    State.reset.current.toNat < 2 ^ State.reset.cfg.cntBits

/-- The invariant holds after reset (R25; that the tick period is not zero is the model's, log entry 10). -/
def Obligations.ResetSatisfiesInvariant : Prop := State.reset.Inv

/-- R25: every step keeps RELOAD and CURRENT below `2^CNT_BITS`; with it the tick period stays positive and no finished
loop stays in progress (log entry 10 and D26). -/
def Obligations.StepKeepsInvariant : Prop :=
  ∀ s t : State, s.Inv → step s = .next t → t.Inv

/-- R130: RESET clears the control bits, the flag, the request and the Tick Counter; RELOAD and CURRENT become
some values of CNT_BITS bits (they are the model's draws, so is the counter of draws, log entry 5); nothing else
changes, which for the fields that are not the block's (`gie`, `rdata`, `hasWrapped`, `period`, `owned`,
`foreground`, `inputs`) is the model's choice (log entries 8 and 9). -/
def Obligations.ResetOperation : Prop :=
  (∀ s : State, ∃ (r c : Word) (d : Nat),
    exec .reset s = .next { s with
      enable := false, tickint := false, clksource := false, countflag := false, irqPending := false,
      ticks := 0, reload := r, current := c, draws := d } ∧
    r.toNat < 2 ^ s.cfg.cntBits ∧ c.toNat < 2 ^ s.cfg.cntBits) ∧
  decode ⟨0x8400000000#40, .arg⟩ = .ok .reset

/-- R11: the parameters do not change during a run. -/
def Obligations.ParametersAreConstant : Prop :=
  ∀ s t : State, step s = .next t → t.cfg = s.cfg

/-! ### Flags, hidden state, views (`10_state.md`) -/

/-- R15: the count flag is set by a wrap event and by nothing else, cleared by every read of control_status and by
RESET and by nothing else; the value such a read returns carries the flag as it was; it is 0 after reset. -/
def Obligations.CountFlagCauses : Prop :=
  (∀ s t : State, step s = .next t →
    (wrapsNext s = true → t.countflag = true) ∧
    (readsCsNext s = true → t.countflag = false ∧ t.rdata.getLsbD 16 = s.countflag) ∧
    (resetsNext s = true → t.countflag = false) ∧
    (wrapsNext s = false → readsCsNext s = false → resetsNext s = false → t.countflag = s.countflag)) ∧
  State.reset.countflag = false

/-- R23: the request is set by a wrap event taken with TICKINT = 1, cleared by the handler run and by RESET, and
changed by nothing else; no operation of the foreground depends on it or returns it. -/
def Obligations.RequestCauses : Prop :=
  (∀ s t : State, step s = .next t →
    (wrapsNext s = true → s.tickint = true → t.irqPending = true) ∧
    (runsHandler s = true → t.irqPending = false) ∧
    (resetsNext s = true → t.irqPending = false) ∧
    (wrapsNext s = false ∨ s.tickint = false → runsHandler s = false → resetsNext s = false →
      t.irqPending = s.irqPending)) ∧
  (∀ (i : Instr) (s t : State) (b : Bool), i.agent = .foreground → exec i s = .next t →
    exec i { s with irqPending := b } = .next { t with irqPending := b })

/-- R90: the Tick Counter is written by IRQ.TAKE and RESET and by nothing else. -/
def Obligations.TicksSingleWriter : Prop :=
  ∀ s t : State, step s = .next t → runsHandler s = false → resetsNext s = false → t.ticks = s.ticks

/-- R17: after a write of any data to control_status a read returns zero in the reserved bits 31:17 and 15:3, and the
written bits 2:0; after a write to a count a read returns the low CNT_BITS bits of the data; under the invariant
reads of the two counts are zero above CNT_BITS. -/
def Obligations.ReservedBitsReadZero : Prop :=
  ∀ s : State,
    (∀ d : Word, ∃ t u, exec (.wrCs d) s = .next t ∧ exec .rdCs t = .next u ∧
      u.rdata &&& 0xFFFEFFFF#32 = d &&& 0x00000007#32) ∧
    (∀ d : Word, ∃ t u, exec (.wrReload d) s = .next t ∧ exec .rdReload t = .next u ∧
      u.rdata.toNat = d.toNat % 2 ^ s.cfg.cntBits) ∧
    (∀ d : Word, ∃ t u, exec (.wrCurrent d) s = .next t ∧ exec .rdCurrent t = .next u ∧
      u.rdata.toNat = d.toNat % 2 ^ s.cfg.cntBits) ∧
    (s.Inv → ∀ k, s.cfg.cntBits ≤ k → ∃ t u, exec .rdReload s = .next t ∧ exec .rdCurrent s = .next u ∧
      t.rdata.getLsbD k = false ∧ u.rdata.getLsbD k = false)

/-- R30: the byte view is little-endian. -/
def Obligations.ByteViewIsLittleEndian : Prop :=
  ∀ (s : State) (r : Reg) (k : Nat), k < 4 →
    byteAt s (s.cfg.timerBase.toNat + 4 * r.index + k) =
      some (BitVec.ofNat 8 ((s.view r).toNat / 2 ^ (8 * k)))

/-! ### Encoding (`30_encoding.md`) -/

/-- Decode and encode agree: an operation word decodes to an operation exactly when it is that operation's word, with
every operand at every value (R47, R51). -/
def Obligations.DecodeAgreesWithEncode : Prop :=
  ∀ (w : OpWord) (i : Instr), decode w = .ok i ↔ w = encode i

/-- R52 (1): an operation word is refused exactly when it is ill-formed; a selector of kind 000 with
`off[1:0] ≠ 0` is a misaligned access. -/
def Obligations.DecodeRefusesIllFormedWords : Prop :=
  ∀ w : OpWord,
    ((∃ i, decode w = .ok i) ↔ w.wellFormed = true) ∧
    (selectors.contains w.selector = false →
      decode w = .error
        (if w.bits.toNat / 2 ^ 37 = 0 then DecodeError.misaligned else DecodeError.unknownSelector))

/-- R47: words of the table, written out. -/
def Obligations.DecodesTableWords : Prop :=
  decode ⟨0x0800000000#40, .arg⟩ = .ok .rdCurrent ∧
  decode ⟨0x10FFFFFFFF#40, .arg⟩ = .ok (.wrCs 0xFFFFFFFF) ∧
  decode ⟨0x34_0000_0000#40, .add .arg (.lit 1)⟩ = .ok (.modReload (.add .arg (.lit 1))) ∧
  decode ⟨0x4000000000#40, .arg⟩ = .ok .rdTicks ∧
  decode ⟨0x8100000000#40, .arg⟩ = .ok .tickRef ∧
  decode ⟨0x2000000000#40, .arg⟩ = .error .unknownSelector ∧
  decode ⟨0x0600000000#40, .arg⟩ = .error .misaligned

/-- R46 and R48: a word access at `TIMER_BASE + 4*i` is the RD or WR of register `i`. -/
def Obligations.BusReachesFourRegisters : Prop :=
  ∀ (cfg : Params) (d : Word),
    decodeBus cfg (.read (cfg.timerBase + 0x0) 4) = .ok .rdCs ∧
    decodeBus cfg (.read (cfg.timerBase + 0x4) 4) = .ok .rdReload ∧
    decodeBus cfg (.read (cfg.timerBase + 0x8) 4) = .ok .rdCurrent ∧
    decodeBus cfg (.read (cfg.timerBase + 0xC) 4) = .ok .rdCalib ∧
    decodeBus cfg (.write (cfg.timerBase + 0x0) 4 d) = .ok (.wrCs d) ∧
    decodeBus cfg (.write (cfg.timerBase + 0x4) 4 d) = .ok (.wrReload d) ∧
    decodeBus cfg (.write (cfg.timerBase + 0x8) 4 d) = .ok (.wrCurrent d) ∧
    decodeBus cfg (.write (cfg.timerBase + 0xC) 4 d) = .ok (.wrCalib d)

/-- R31, R32, R36 and the last row of R35's map: every other access is refused by name, and a word read at TICKS_ADDR is
the tick counter read. The order of the three checks, and the refusals of a write and of another size at
TICKS_ADDR, are the model's choice (log entry 13). -/
def Obligations.BusRefusesOtherAccesses : Prop :=
  ∀ (cfg : Params) (t : BusReq),
    (cfg.timerBase.toNat ≤ t.addr.toNat → t.addr.toNat ≤ cfg.timerBase.toNat + 15 →
      (t.size ≠ 4 → decodeBus cfg t = .error .width) ∧
      (t.size = 4 → (t.addr.toNat - cfg.timerBase.toNat) % 4 ≠ 0 →
        decodeBus cfg t = .error .misaligned)) ∧
    (cfg.ticksAddr = some t.addr →
      (t.size ≠ 4 → decodeBus cfg t = .error .width) ∧
      (t.size = 4 → decodeBus cfg t = if t.isWrite then .error .ticksWrite else .ok .rdTicks)) ∧
    (t.addr.toNat < cfg.timerBase.toNat ∨ cfg.timerBase.toNat + 15 < t.addr.toNat →
      cfg.ticksAddr ≠ some t.addr → decodeBus cfg t = .error .outsideBlock)

/-- The function of a MOD is any pure function on words (R47, R68): the model's expressions reach every one. -/
def Obligations.EveryFunctionIsAnOperand : Prop :=
  ∀ f : Word → Word, ∃ e : Fn, ∀ v : Word, e.eval v = f v

/-! ### Steps (`00_scope.md` R9, `20_memory.md` R38, R39) -/

/-- A step runs the decoded operation (R9): an event at once, an operation of the foreground when nothing is in
progress there. -/
def Obligations.StepRunsDecodedOperation : Prop :=
  ∀ (s : State) (w : OpWord) (i : Instr) (rest : List Input),
    s.inputs = .op w :: rest → decode w = .ok i → (i.agent ≠ .foreground ∨ s.foreground = []) →
      step s = exec i { s with inputs := rest }

/-- A step runs the operation of a bus transaction (R46), or refuses it by name. -/
def Obligations.StepRunsBusTransaction : Prop :=
  ∀ (s : State) (t : BusReq) (rest : List Input),
    s.inputs = .bus t :: rest → s.foreground = [] →
      step s =
        match decodeBus s.cfg t with
        | .ok i => exec i { s with inputs := rest }
        | .error why => .refused (.undecodable why)

/-- R38: an access of the foreground begins only when what it has in progress is complete; what is in progress is
taken first, and the access stays the next input. -/
def Obligations.ForegroundKeepsProgramOrder : Prop :=
  ∀ (s : State) (p : Pending) (ps : List Pending) (x : Input) (rest : List Input),
    s.foreground = p :: ps → s.inputs = x :: rest →
    ((∃ w i, x = .op w ∧ decode w = .ok i ∧ i.agent = .foreground) ∨ (∃ t, x = .bus t) ∨
      (∃ c, x = .call c)) →
      step s = .next (runPending p { s with foreground := ps })

/-- R39 and R116: a wrap event and an operation that reads control_status, RD.CS or MOD.CS, in one cycle are taken read
first, in whichever order they are given: the read returns the flag as it was, and the wrap's flag stands
afterwards; the write half of the MOD is then still in progress. -/
def Obligations.SimultaneousReadComesBeforeWrap : Prop :=
  ∀ (s : State) (i j : Instr) (rest : List Input),
    isWrapEvent i s = true → j.readsCs = true → s.foreground = [] →
    (s.inputs = .coincide (encode i) (encode j) :: rest ∨ s.inputs = .coincide (encode j) (encode i) :: rest) →
      ∃ t u, exec j { s with inputs := rest } = .next t ∧ exec i t = .next u ∧ runSteps 2 s = .next u ∧
        wrapDet u.rdata = s.countflag ∧ u.countflag = true ∧ u.current = s.reload ∧ u.inputs = rest ∧
        (∀ f, j = .modCs f → u.foreground = [.write .cs (f.eval u.rdata)])

/-- R114: the global interrupt enable is changed by the environment alone, and the environment's change sets it. -/
def Obligations.GieChangesOnlyFromOutside : Prop :=
  (∀ s t : State, step s = .next t → t.gie ≠ s.gie → ∃ rest, s.inputs = .gie t.gie :: rest) ∧
  (∀ (s : State) (b : Bool) (rest : List Input), s.inputs = .gie b :: rest →
    step s = .next { s with gie := b, inputs := rest })

/-! ### Bus operations (`40_bus_operations.md`) -/

/-- R60. -/
def Obligations.ReadControlStatus : Prop :=
  ∀ s : State,
    exec .rdCs s = .next { s with
      rdata := BitVec.ofNat 32 (s.countflag.toNat * 0x00010000 + s.clksource.toNat * 4 +
        s.tickint.toNat * 2 + s.enable.toNat)
      hasWrapped := s.countflag
      countflag := false } ∧
    decode ⟨0x0000000000#40, .arg⟩ = .ok .rdCs ∧
    decodeBus s.cfg (.read (s.cfg.timerBase + 0x0) 4) = .ok .rdCs

/-- R61: only ENABLE, TICKINT and CLKSOURCE are taken from the data. -/
def Obligations.WriteControlStatus : Prop :=
  ∀ (s : State) (d : Word),
    exec (.wrCs d) s = .next { s with
      enable := decide (d.toNat % 2 = 1)
      tickint := decide (d.toNat / 2 % 2 = 1)
      clksource := decide (d.toNat / 4 % 2 = 1) } ∧
    decode ⟨0x10#8 ++ d, .arg⟩ = .ok (.wrCs d) ∧
    decodeBus s.cfg (.write (s.cfg.timerBase + 0x0) 4 d) = .ok (.wrCs d)

/-- R62 and R64: the two counts read as they stand, with no side effect. -/
def Obligations.ReadCounts : Prop :=
  ∀ s : State,
    exec .rdReload s = .next { s with rdata := s.reload } ∧
    exec .rdCurrent s = .next { s with rdata := s.current } ∧
    decode ⟨0x0400000000#40, .arg⟩ = .ok .rdReload ∧
    decode ⟨0x0800000000#40, .arg⟩ = .ok .rdCurrent ∧
    decodeBus s.cfg (.read (s.cfg.timerBase + 0x4) 4) = .ok .rdReload ∧
    decodeBus s.cfg (.read (s.cfg.timerBase + 0x8) 4) = .ok .rdCurrent ∧
    (s.Inv → s.reload.toNat < 2 ^ s.cfg.cntBits ∧ s.current.toNat < 2 ^ s.cfg.cntBits)

/-- R63 and R65: the low CNT_BITS bits of the data are stored, nothing else changes. -/
def Obligations.WriteCounts : Prop :=
  ∀ (s : State) (d : Word),
    exec (.wrReload d) s = .next { s with
      reload := BitVec.ofNat 32 (d.toNat % 2 ^ s.cfg.cntBits) } ∧
    exec (.wrCurrent d) s = .next { s with
      current := BitVec.ofNat 32 (d.toNat % 2 ^ s.cfg.cntBits) } ∧
    decode ⟨0x14#8 ++ d, .arg⟩ = .ok (.wrReload d) ∧
    decode ⟨0x18#8 ++ d, .arg⟩ = .ok (.wrCurrent d) ∧
    decodeBus s.cfg (.write (s.cfg.timerBase + 0x4) 4 d) = .ok (.wrReload d) ∧
    decodeBus s.cfg (.write (s.cfg.timerBase + 0x8) 4 d) = .ok (.wrCurrent d)

/-- R66: RD.CALIB returns CALIB_VALUE and has no side effect, and returns the same value at every read, whatever
happened before. -/
def Obligations.ReadCalibration : Prop :=
  ∀ s : State,
    exec .rdCalib s = .next { s with rdata := s.cfg.calibValue } ∧
    (∀ (l : List Instr) (t : State), execAll l s = .next t →
      ∃ u, exec .rdCalib t = .next u ∧ u.rdata = s.cfg.calibValue) ∧
    decode ⟨0x0C00000000#40, .arg⟩ = .ok .rdCalib ∧
    decodeBus s.cfg (.read (s.cfg.timerBase + 0xC) 4) = .ok .rdCalib

/-- R67: a write of calibration is accepted and dropped. -/
def Obligations.WriteCalibration : Prop :=
  ∀ (s : State) (d : Word),
    exec (.wrCalib d) s = .next s ∧
    decode ⟨0x1C#8 ++ d, .arg⟩ = .ok (.wrCalib d) ∧
    decodeBus s.cfg (.write (s.cfg.timerBase + 0xC) 4 d) = .ok (.wrCalib d)

/-- R71, which the spec derives from R66 and R67: MOD.CALIB reads CALIB_VALUE, and its write half changes nothing. -/
def Obligations.ModifyCalibration : Prop :=
  ∀ (s : State) (f : Fn) (rest : List Input),
    exec (.modCalib f) s = .next { s with
      rdata := s.cfg.calibValue
      foreground := .write .calib (f.eval s.cfg.calibValue) :: s.foreground } ∧
    step { s with
      foreground := .write .calib (f.eval s.cfg.calibValue) :: s.foreground, inputs := .resume :: rest } =
        .next { s with inputs := rest } ∧
    decode ⟨0x3C00000000#40, f⟩ = .ok (.modCalib f)

/-- R72: the tick counter read returns the counter and has no side effect. R35 and R72 say that the foreground has no
write port to the counter; that a write at TICKS_ADDR is refused by name is the model's choice (log entry 13). -/
def Obligations.ReadTickCounter : Prop :=
  ∀ s : State,
    exec .rdTicks s = .next { s with rdata := s.ticks } ∧
    decode ⟨0x4000000000#40, .arg⟩ = .ok .rdTicks ∧
    (∀ a, s.cfg.ticksAddr = some a → decodeBus s.cfg (.read a 4) = .ok .rdTicks ∧
      ∀ d, decodeBus s.cfg (.write a 4 d) = .error .ticksWrite)

/-- R68 and R42: MOD.CS reads, clearing the flag; any events may come next; then the write half stores the three bits of
`f` of the value read in whatever state the events left, and the flag stays as they left it. If no RESET is among
the events, the flag is then set exactly if a wrap event was, and the three control bits are as they were read. -/
def Obligations.ModifyControlStatus : Prop :=
  ∀ (s : State) (f : Fn) (v : Word),
    v = BitVec.ofNat 32 (s.countflag.toNat * 0x00010000 + s.clksource.toNat * 4 +
      s.tickint.toNat * 2 + s.enable.toNat) →
    ∃ t, t = { s with
        rdata := v
        hasWrapped := s.countflag
        countflag := false
        foreground := .write .cs (f.eval v) :: s.foreground } ∧
      exec (.modCs f) s = .next t ∧
      (∀ (gap : List Instr) (u : State) (rest : List Input),
        (∀ i ∈ gap, i.agent ≠ .foreground) → execAll gap t = .next u →
        step { u with inputs := .resume :: rest } = .next { u with
          enable := decide ((f.eval v).toNat % 2 = 1)
          tickint := decide ((f.eval v).toNat / 2 % 2 = 1)
          clksource := decide ((f.eval v).toNat / 4 % 2 = 1)
          foreground := s.foreground
          inputs := rest } ∧
        (Instr.reset ∉ gap → (u.countflag = true ↔ 0 < wrapCount gap t) ∧
          u.enable = s.enable ∧ u.tickint = s.tickint ∧ u.clksource = s.clksource)) ∧
      decode ⟨0x3000000000#40, f⟩ = .ok (.modCs f)

/-- R69: MOD.RELOAD reads and then writes; whatever events but RESET fall between its halves, RELOAD becomes the low
CNT_BITS bits of `f` of its old value, as if atomic. -/
def Obligations.ModifyReload : Prop :=
  ∀ (s : State) (f : Fn),
    ∃ t, t = { s with rdata := s.reload, foreground := .write .reload (f.eval s.reload) :: s.foreground } ∧
      exec (.modReload f) s = .next t ∧
      (∀ (gap : List Instr) (u : State) (rest : List Input),
        (∀ i ∈ gap, i.agent ≠ .foreground ∧ i ≠ .reset) → execAll gap t = .next u →
        u.reload = s.reload ∧
        step { u with inputs := .resume :: rest } = .next { u with
          reload := BitVec.ofNat 32 ((f.eval s.reload).toNat % 2 ^ s.cfg.cntBits)
          foreground := s.foreground
          inputs := rest }) ∧
      decode ⟨0x3400000000#40, f⟩ = .ok (.modReload f)

/-- R70: MOD.CURRENT is not atomic: whatever events fall between its halves, CURRENT becomes a function of the count that
was read, and what else the events did stays. If no RESET is among them, a wrap event in the gap has set the flag
and, with TICKINT, the request, unless the handler has run; with the counter stopped it is as if atomic. -/
def Obligations.ModifyCurrent : Prop :=
  ∀ (s : State) (f : Fn),
    ∃ t, t = { s with rdata := s.current, foreground := .write .current (f.eval s.current) :: s.foreground } ∧
      exec (.modCurrent f) s = .next t ∧
      (∀ (gap : List Instr) (u : State) (rest : List Input),
        (∀ i ∈ gap, i.agent ≠ .foreground) → execAll gap t = .next u →
        step { u with inputs := .resume :: rest } = .next { u with
          current := BitVec.ofNat 32 ((f.eval s.current).toNat % 2 ^ s.cfg.cntBits)
          foreground := s.foreground
          inputs := rest } ∧
        (Instr.reset ∉ gap → 0 < wrapCount gap t → u.countflag = true ∧
          (s.tickint = true → Instr.irqTake ∉ gap → u.irqPending = true)) ∧
        (Instr.reset ∉ gap → s.enable = false → u.current = s.current)) ∧
      decode ⟨0x3800000000#40, f⟩ = .ok (.modCurrent f)

/-! ### Count pulses and the flag extractor (`41_counter_events.md`) -/

/-- R75: the count step, and that a wrap event is the only thing that sets the flag or requests the interrupt. -/
def Obligations.CountStepAndWrapEvent : Prop :=
  (∀ s : State, countStep s =
    if s.enable = false then s
    else if s.current.toNat = 0 then { s with
      current := s.reload
      countflag := true
      irqPending := if s.tickint = true then true else s.irqPending }
    else { s with current := BitVec.ofNat 32 (s.current.toNat - 1) }) ∧
  (∀ (i : Instr) (s t : State), exec i s = .next t →
    (s.countflag = false → t.countflag = true → isWrapEvent i s = true) ∧
    (s.irqPending = false → t.irqPending = true → isWrapEvent i s = true ∧ s.tickint = true))

/-- R76 and R77: a pulse of the selected clock is a count step, a pulse of the other changes nothing; CLKSOURCE = 1 selects
the core clock (R26). -/
def Obligations.ClockPulses : Prop :=
  ∀ s : State,
    exec .tickCore s = .next (if s.clksource = true then
      (if s.enable = true then
        (if s.current.toNat = 0 then { s with
          current := s.reload, countflag := true, irqPending := s.tickint || s.irqPending }
        else { s with current := BitVec.ofNat 32 (s.current.toNat - 1) })
      else s) else s) ∧
    exec .tickRef s = .next (if s.clksource = false then
      (if s.enable = true then
        (if s.current.toNat = 0 then { s with
          current := s.reload, countflag := true, irqPending := s.tickint || s.irqPending }
        else { s with current := BitVec.ofNat 32 (s.current.toNat - 1) })
      else s) else s) ∧
    decode ⟨0x8000000000#40, .arg⟩ = .ok .tickCore ∧
    decode ⟨0x8100000000#40, .arg⟩ = .ok .tickRef

/-- R78: with the counter running and RELOAD = r, `k` pulses of the selected clock give no wrap event while `k` is at most
CURRENT, one at pulse CURRENT + 1, and then one every `r + 1` pulses; at each wrap CURRENT is `r` again. -/
def Obligations.PeriodLaw : Prop :=
  ∀ (s : State) (i : Instr), isSelectedPulse i s = true → s.enable = true →
    (∀ k, k ≤ s.current.toNat →
      execAll (List.replicate k i) s = .next { s with
        current := BitVec.ofNat 32 (s.current.toNat - k) } ∧
      wrapCount (List.replicate k i) s = 0) ∧
    (∀ m j, j ≤ s.reload.toNat →
      execAll (List.replicate (s.current.toNat + 1 + m * (s.reload.toNat + 1) + j) i) s = .next { s with
        current := BitVec.ofNat 32 (s.reload.toNat - j)
        countflag := true
        irqPending := s.tickint || s.irqPending } ∧
      wrapCount (List.replicate (s.current.toNat + 1 + m * (s.reload.toNat + 1) + j) i) s = m + 1)

/-- R80: a pulse never takes the count above the larger of CURRENT and RELOAD, and a decrement never underflows. -/
def Obligations.CountStaysBounded : Prop :=
  ∀ (l : List Instr) (s t : State), (∀ i ∈ l, i = .tickCore ∨ i = .tickRef) → execAll l s = .next t →
    t.current.toNat ≤ max s.current.toNat s.reload.toNat ∧ t.reload = s.reload

/-- R81: only ENABLE gates counting. With ENABLE = 0 no pulse changes any state; TICKINT does not affect the count or
the flag; IRQ.TAKE does not clear the flag, and RD.CS does not clear the request. -/
def Obligations.EnableAloneGatesCounting : Prop :=
  (∀ (l : List Instr) (s : State), (∀ i ∈ l, i = .tickCore ∨ i = .tickRef) → s.enable = false →
    execAll l s = .next s) ∧
  (∀ (i : Instr) (s : State) (b : Bool), i = .tickCore ∨ i = .tickRef →
    ∃ t u, exec i s = .next t ∧ exec i { s with tickint := b } = .next u ∧
      u.current = t.current ∧ u.countflag = t.countflag) ∧
  (∀ s t : State, exec .irqTake s = .next t → t.countflag = s.countflag) ∧
  (∀ s t : State, exec .rdCs s = .next t → t.irqPending = s.irqPending)

/-- R79: the extractor is bit 16, whatever the other bits. -/
def Obligations.WrapDetectIsBitSixteen : Prop :=
  (∀ v : Word, wrapDet v = true ↔ v &&& 0x00010000#32 ≠ 0) ∧
  wrapDet 0x00010000 = true ∧ wrapDet 0x0000FFFF = false ∧ wrapDet 0xFFFEFFFF = false ∧
  wrapDet 0xFFFFFFFF = true

/-- R82: with no wrap event since a read of control_status the next read returns bit 16 = 0; with one or more wrap events
and no read and no reset since, the next read returns bit 16 = 1. -/
def Obligations.ConsumptionLaw : Prop :=
  ∀ (l : List Instr) (s t : State), execAll l s = .next t →
    (s.countflag = false → wrapCount l s = 0 →
      ∃ u, exec .rdCs t = .next u ∧ wrapDet u.rdata = false) ∧
    (0 < wrapCount l s → (∀ i ∈ l, i.readsCs = false ∧ i ≠ .reset) →
      ∃ u, exec .rdCs t = .next u ∧ wrapDet u.rdata = true)

/-! ### Tick-counter update and the interrupt (`42_tick_update.md`, `60_exceptions.md`) -/

/-- R85: the update function, in both forms. -/
def Obligations.TickUpdateFunction : Prop :=
  ∀ t : Word, tickUpd t = (if t = 0xFFFFFFFF#32 then 0x00000000#32 else t + 1) ∧
    (tickUpd t).toNat = (t.toNat + 1) % 2 ^ 32

/-- R86: IRQ.TAKE with a request and GIE = 1 clears the request and, if the handler is registered, adds one to the
counter modulo `2^32`; where the condition is false it has no step. -/
def Obligations.TakeInterrupt : Prop :=
  (∀ s : State, s.irqPending = true → s.gie = true →
    exec .irqTake s = .next { s with
      irqPending := false
      ticks := if s.cfg.handlerWired = true then BitVec.ofNat 32 ((s.ticks.toNat + 1) % 2 ^ 32)
        else s.ticks }) ∧
  (∀ s : State, (s.irqPending = false ∨ s.gie = false) → exec .irqTake s = .refused .takeNotEnabled) ∧
  decode ⟨0x8200000000#40, .arg⟩ = .ok .irqTake

/-- R87: IRQ.SPUR with GIE = 1 leaves every state as it is; with GIE = 0 it has no step. -/
def Obligations.SpuriousInterruptIsAbsorbed : Prop :=
  (∀ s : State, s.gie = true → exec .irqSpur s = .next s) ∧
  (∀ s : State, s.gie = false → exec .irqSpur s = .refused .spurNotEnabled) ∧
  decode ⟨0x8300000000#40, .arg⟩ = .ok .irqSpur

/-- R88: after any operations without RESET the counter is its initial value plus the number of handler runs, modulo
`2^32`. -/
def Obligations.WraparoundLaw : Prop :=
  ∀ (l : List Instr) (s t : State), s.cfg.handlerWired = true → Instr.reset ∉ l → execAll l s = .next t →
    t.ticks.toNat = (s.ticks.toNat + l.count .irqTake) % 2 ^ 32

/-- R89: the wraparound-aware difference of two readings is the number of handler runs between them, if there are fewer
than `2^32`. -/
def Obligations.ElapsedCountsHandlerRuns : Prop :=
  ∀ (l : List Instr) (s t : State), s.cfg.handlerWired = true → Instr.reset ∉ l →
    l.count .irqTake < 2 ^ 32 → execAll l s = .next t →
    (elapsed s.ticks t.ticks).toNat = l.count .irqTake

/-- R91: the counter moves only by RESET or by IRQ.TAKE with a request, GIE = 1 and the handler registered; and with
TICKINT = 0, or ENABLE = 0, or no pulse of the selected clock, with no request pending and no write of
control_status, no request is ever made, no handler runs and the counter never changes. -/
def Obligations.TickNeedsEveryCondition : Prop :=
  (∀ (i : Instr) (s t : State), exec i s = .next t → t.ticks ≠ s.ticks →
    i = .reset ∨ (i = .irqTake ∧ s.irqPending = true ∧ s.gie = true ∧ s.cfg.handlerWired = true)) ∧
  (∀ (l : List Instr) (s t : State), s.irqPending = false →
    (s.tickint = false ∨ s.enable = false ∨ ∀ i ∈ l, isSelectedPulse i s = false) →
    (∀ i ∈ l, i ≠ .reset ∧ ∀ d, i ≠ .wrCs d) → execAll l s = .next t →
    t.ticks = s.ticks ∧ t.irqPending = false ∧ Instr.irqTake ∉ l)

/-- R113: requests merge: however many wrap events there were since the last handler run, one handler run answers all of
them and adds one. -/
def Obligations.RequestsMerge : Prop :=
  ∀ (l : List Instr) (s t u : State), s.cfg.handlerWired = true →
    (∀ i ∈ l, i ≠ .irqTake ∧ i ≠ .reset) → execAll l s = .next t → exec .irqTake t = .next u →
    u.ticks = s.ticks + 1 ∧ u.irqPending = false

/-! ### Driver sequences (`43_driver_sequences.md`) -/

/-- R94 and R43: `new` binds and issues no operation; a second live binding is refused. -/
def Obligations.NewBindsOnce : Prop :=
  ∀ (s : State) (rest : List Input), s.foreground = [] → s.inputs = .call .new :: rest →
    (s.owned = false → step s = .next { s with owned := true, inputs := rest }) ∧
    (s.owned = true → step s = .refused .secondOwner)

/-- R95 and R106: `init`, with no event between its accesses: the counter runs on the core clock from the reload value
`ms * (F_CORE_HZ div 1000) - 1`, the flag is clear, TICKINT is as VARIANT asks. Six turns, one for the call and one
for each access, are the model's choice (log entry 4). -/
def Obligations.InitProgramsTheTimer : Prop :=
  ∀ (s : State) (ms : Word), s.foreground = [] → s.inputs = [.call (.init ms)] →
    1 ≤ ms.toNat → 1000 ≤ s.cfg.fCoreHz → ms.toNat * (s.cfg.fCoreHz / 1000) ≤ 2 ^ s.cfg.cntBits →
    ∃ r : Word, r.toNat = ms.toNat * (s.cfg.fCoreHz / 1000) - 1 ∧
      runSteps 6 s = .next { s with
        enable := true
        tickint := decide (s.cfg.variant = .interrupt)
        clksource := true
        countflag := false
        reload := r
        current := r
        rdata := if s.countflag = true then
            (if s.cfg.variant = .interrupt then 0x00010006 else 0x00010004)
          else (if s.cfg.variant = .interrupt then 0x00000006 else 0x00000004)
        hasWrapped := s.countflag
        period := ms.toNat
        inputs := [] }

/-- R106: the reload computation, and that outside its preconditions `init` is refused. -/
def Obligations.ReloadComputation : Prop :=
  (∀ (cfg : Params) (ms : Nat), 1 ≤ ms → 1000 ≤ cfg.fCoreHz → ms * (cfg.fCoreHz / 1000) ≤ 2 ^ cfg.cntBits →
    ∃ r, reloadVal cfg ms = some r ∧ r + 1 = ms * (cfg.fCoreHz / 1000)) ∧
  (∀ (s : State) (ms : Word) (rest : List Input), s.foreground = [] → s.inputs = .call (.init ms) :: rest →
    (ms.toNat = 0 ∨ s.cfg.fCoreHz < 1000 ∨ 2 ^ s.cfg.cntBits < ms.toNat * (s.cfg.fCoreHz / 1000)) →
    step s = .refused .reloadPrecondition)

/-- R96, R97 and R102: `has_wrapped`, `set_reload` and `ticks` are one access each; two calls of `has_wrapped` with no
wrap between return the flag and then false. One turn for the call and one for the access are the model's choice (log
entry 4). -/
def Obligations.OneAccessCalls : Prop :=
  ∀ (s : State) (v : Word), s.foreground = [] →
    (∃ t u, runSteps 2 { s with inputs := [.call .hasWrapped] } = .next t ∧
      t = { s with inputs := [], countflag := false, rdata := t.rdata, hasWrapped := s.countflag } ∧
      hasWrappedOut t = s.countflag ∧
      runSteps 2 { t with inputs := [.call .hasWrapped] } = .next u ∧ hasWrappedOut u = false) ∧
    runSteps 2 { s with inputs := [.call (.setReload v)] } = .next { s with
      inputs := [], reload := BitVec.ofNat 32 (v.toNat % 2 ^ s.cfg.cntBits) } ∧
    runSteps 2 { s with inputs := [.call .ticks] } = .next { s with inputs := [], rdata := s.ticks }

/-- R98 to R101: the four bit operations set or clear their bit, keep the other two, and clear the count flag through their
read half. One turn for the call and one for each half are the model's choice (log entry 4). -/
def Obligations.BitOperations : Prop :=
  ∀ s : State, s.foreground = [] → ∃ v : Word,
    v.toNat = s.countflag.toNat * 0x00010000 + s.clksource.toNat * 4 + s.tickint.toNat * 2 +
      s.enable.toNat ∧
    runSteps 3 { s with inputs := [.call .enableCounter] } = .next { s with
      inputs := [], rdata := v, hasWrapped := s.countflag, countflag := false, enable := true } ∧
    runSteps 3 { s with inputs := [.call .disableCounter] } = .next { s with
      inputs := [], rdata := v, hasWrapped := s.countflag, countflag := false, enable := false } ∧
    runSteps 3 { s with inputs := [.call .enableInterrupt] } = .next { s with
      inputs := [], rdata := v, hasWrapped := s.countflag, countflag := false, tickint := true } ∧
    runSteps 3 { s with inputs := [.call .disableInterrupt] } = .next { s with
      inputs := [], rdata := v, hasWrapped := s.countflag, countflag := false, tickint := false }

/-- R140: a delay asks for `ms div P` ticks, and for none of them it does not wait: the polling delay is over at once, the
interrupt-driven one after its first sample, which is the value it compares with from then on (R103, R104, D26).
With the tick period 0 it is refused (R103, U16). That the first sample is a turn of its own is the model's choice (log
entry 4). -/
def Obligations.DelayRoundsDown : Prop :=
  ∀ (s : State) (ms : Word) (rest : List Input), s.foreground = [] → s.inputs = .call (.delayMs ms) :: rest →
    (s.period = 0 → step s = .refused .zeroPeriod) ∧
    (0 < s.period → step s = .next { s with
      inputs := rest
      foreground :=
        match s.cfg.variant with
        | .polling => if ms.toNat / s.period = 0 then [] else [.poll (ms.toNat / s.period)]
        | .interrupt => [.sample (ms.toNat / s.period)] }) ∧
    (0 < s.period → s.cfg.variant = .interrupt → (rest = [] ∨ rest.head? = some .resume) →
      runSteps 2 s = .next { s with
        inputs := rest.tail
        rdata := s.ticks
        foreground :=
          if ms.toNat / s.period = 0 then [] else [.watch (ms.toNat / s.period) 0 s.ticks] })

/-- R103: over any run in which the environment alone acts beside it, the polling delay has made as many observations of a
set flag as its countdown has lost, so it returns at the `n`-th exactly. -/
def Obligations.PollingDelayCountsObservations : Prop :=
  ∀ (k n : Nat) (s t : State), (∀ x ∈ s.inputs, x.ofEnvironment = true) →
    s.foreground = (if n = 0 then [] else [.poll n]) → runSteps k s = .next t →
    ∃ m, m ≤ n ∧ t.foreground = (if m = 0 then [] else [.poll m]) ∧
      countAlong observesWrap k s = n - m

/-- R104: over any run without RESET in which the environment alone acts beside it, an interrupt-driven delay, followed
from its first sample or from just before it, returns only after at least `needed` handler runs; with the handler
registered the counter has advanced by that number, modulo `2^32`. -/
def Obligations.InterruptDelayNeverReturnsEarly : Prop :=
  ∀ (k needed : Nat) (s t : State), (∀ x ∈ s.inputs, x.noReset = true) →
    (s.foreground = [.sample needed] ∨
      s.foreground = (if 0 = needed then [] else [.watch needed 0 s.ticks])) →
    runSteps k s = .next t → t.foreground = [] →
    needed ≤ countAlong runsHandler k s ∧
    (s.cfg.handlerWired = true →
      t.ticks.toNat = (s.ticks.toNat + countAlong runsHandler k s) % 2 ^ 32)

/-- R137: a polling delay with the flag clear, on a counter that is stopped or whose selected clock gives no pulse, never
returns, whatever pulses come: each step has a next state, and the delay is where it was. -/
def Obligations.PollingDelayHangsWhenStopped : Prop :=
  ∀ (k n : Nat) (s : State), (∀ x ∈ s.inputs, x.pulseOrResume = true) →
    (s.enable = false ∨ ∀ i, Input.op (encode i) ∈ s.inputs → isSelectedPulse i s = false) →
    s.countflag = false → 0 < n → s.foreground = [.poll n] →
    ∃ t, runSteps k s = .next t ∧ t.foreground = [.poll n] ∧ t.countflag = false

/-- R137: an interrupt-driven delay during which no handler runs never returns, whatever pulses come. -/
def Obligations.InterruptDelayHangsWithoutHandlerRuns : Prop :=
  ∀ (k needed n : Nat) (s : State), (∀ x ∈ s.inputs, x.pulseOrResume = true) → n < needed →
    s.foreground = [.watch needed n s.ticks] →
    ∃ t, runSteps k s = .next t ∧ t.foreground = [.watch needed n s.ticks] ∧ t.ticks = s.ticks

/-- R137 and R104: of the interrupt-driven delay's needs, with any one unmet it never returns, whatever the environment
does but RESET: the handler not registered, though deliveries take place; or GIE = 0 and never set; or no request
pending and ENABLE = 0, or TICKINT = 0, or no pulse of the selected clock. -/
def Obligations.InterruptDelayNeedsEveryCondition : Prop :=
  ∀ (k needed n : Nat) (s t : State), (∀ x ∈ s.inputs, x.noReset = true) → n < needed →
    s.foreground = [.watch needed n s.ticks] →
    (s.cfg.handlerWired = false ∨
      (s.gie = false ∧ Input.gie true ∉ s.inputs) ∨
      (s.irqPending = false ∧ (s.enable = false ∨ s.tickint = false ∨
        ∀ i, Input.op (encode i) ∈ s.inputs → isSelectedPulse i s = false))) →
    runSteps k s = .next t → t.foreground = [.watch needed n s.ticks] ∧ t.ticks = s.ticks

/-- R103 and R104: one turn of each delay. The polling delay reads control_status and counts a set flag; the first sample
of the interrupt-driven delay sets the value it compares with; each later read counts if it differs from the value
last seen, which it then replaces; and a loop is over in the turn that reaches its count. -/
def Obligations.DelayTurns : Prop :=
  ∀ (s : State) (ps : List Pending) (rest : List Input),
    (s.inputs = .resume :: rest ∨ (s.inputs = [] ∧ rest = [])) →
    (∀ n, n ≠ 0 → s.foreground = .poll n :: ps →
      step s = .next { busRead .cs s with
        inputs := rest
        foreground :=
          if s.countflag = true then (if n = 1 then ps else .poll (n - 1) :: ps) else .poll n :: ps }) ∧
    (∀ needed, s.foreground = .sample needed :: ps →
      step s = .next { s with
        rdata := s.ticks
        inputs := rest
        foreground := if needed = 0 then ps else .watch needed 0 s.ticks :: ps }) ∧
    (∀ needed n last, n ≠ needed → s.foreground = .watch needed n last :: ps →
      step s = .next { s with
        rdata := s.ticks
        inputs := rest
        foreground :=
          if s.ticks = last then .watch needed n last :: ps
          else if n + 1 = needed then ps else .watch needed (n + 1) s.ticks :: ps })

/-- R104 and C3: over any run in which the environment alone acts beside it, the count of an interrupt-driven delay has
grown by the number of its reads that differed from the value last seen, so it returns at the `needed`-th exactly. -/
def Obligations.InterruptDelayCountsChanges : Prop :=
  ∀ (k needed n : Nat) (last : Word) (s t : State), (∀ x ∈ s.inputs, x.ofEnvironment = true) → n ≤ needed →
    s.foreground = (if n = needed then [] else [.watch needed n last]) → runSteps k s = .next t →
    ∃ (m : Nat) (seen : Word), n ≤ m ∧ m ≤ needed ∧
      t.foreground = (if m = needed then [] else [.watch needed m seen]) ∧
      countAlong observesChange k s = m - n

/-! ### The outputs (`30_encoding.md` R55) -/

/-- R55: `has_wrapped` is bit 16 of what a read of control_status returns, and keeps it until the next such read: no other
read and no event changes it (that it keeps it is the model's latch, log entry 17); `irq` is the level of the
request and `ticks_out` the Tick Counter. -/
def Obligations.OutputPorts : Prop :=
  ∀ s t : State, step s = .next t →
    (readsCsNext s = true → hasWrappedOut t = s.countflag ∧ hasWrappedOut t = t.rdata.getLsbD 16) ∧
    (readsCsNext s = false → hasWrappedOut t = hasWrappedOut s) ∧
    irqLine t = t.irqPending ∧ ticksOut t = t.ticks
end

