-- ==== Sys2Proof/Laws/Words.lean ====
section
/-! SUPPORT. What the word-level operations compute: operation words and their two parts, truncation to CNT_BITS bits,
the packing of control_status, and the tick-counter update. -/

namespace Sys2Proof

/-- The selector of `OPSEL ++ wdata` is OPSEL. -/
@[simp] theorem selector_append (sel : BitVec 8) (d : Word) (f : Fn) :
    (OpWord.mk (sel ++ d) f).selector = sel := by
  change BitVec.extractLsb' (n := 8 + 32) 32 8 (sel ++ d) = sel
  apply BitVec.eq_of_getLsbD_eq
  intro i hi
  have h : ¬32 + i < 32 := by omega
  simp only [BitVec.getLsbD_extractLsb', hi, BitVec.getLsbD_append, h]
  simp

/-- The write data of `OPSEL ++ wdata` is wdata. -/
@[simp] theorem wdata_append (sel : BitVec 8) (d : Word) (f : Fn) :
    (OpWord.mk (sel ++ d) f).wdata = d := by
  change BitVec.extractLsb' (n := 8 + 32) 0 32 (sel ++ d) = d
  apply BitVec.eq_of_getLsbD_eq
  intro i hi
  simp only [BitVec.getLsbD_extractLsb', hi, BitVec.getLsbD_append, Nat.zero_add]
  simp

/-- An operation word is its selector beside its data. -/
theorem selector_append_wdata (w : OpWord) : w.selector ++ w.wdata = w.bits := by
  simp only [OpWord.selector, OpWord.wdata]
  apply BitVec.eq_of_getLsbD_eq
  intro i hi
  simp only [BitVec.getLsbD_append, BitVec.getLsbD_extractLsb', Nat.zero_add]
  by_cases h : i < 32
  · simp [h]
  · have h8 : i - 32 < 8 := by omega
    have h32 : 32 + (i - 32) = i := by omega
    simp [h, h8, h32]

/-- An operation word is made of its parts. -/
theorem eq_mk_append (w : OpWord) : w = ⟨w.selector ++ w.wdata, w.fn⟩ := by
  have h : (w.selector ++ w.wdata : BitVec 40) = w.bits := selector_append_wdata w
  rw [h]

/-- An operation word decodes by its two parts and the function beside it. -/
@[simp] theorem decode_append (sel : BitVec 8) (d : Word) (f : Fn) :
    decode ⟨sel ++ d, f⟩ = decodeParts sel d f := by
  simp only [decode, selector_append, wdata_append]

/-- The word of an operation decodes by the operation's own parts. -/
theorem decode_encode_parts (i : Instr) :
    decode (encode i) = decodeParts i.opsel i.encodedData i.encodedFn := decode_append _ _ _

/-- What decodes to an operation are that operation's own parts. -/
theorem decodeParts_eq_ok {sel : BitVec 8} {d : Word} {f : Fn} {i : Instr}
    (h : decodeParts sel d f = .ok i) : i.opsel = sel ∧ i.encodedData = d ∧ i.encodedFn = f := by
  unfold decodeParts at h
  split at h <;> (try simp only [decodePlain, decodeWrite, decodeModify] at h)
  all_goals (try split at h) <;> (try split at h) <;> cases h
  all_goals simp_all [Instr.opsel, Instr.encodedData, Instr.encodedFn]

namespace Machine

/-- Truncation keeps the value modulo `2^CNT_BITS`. -/
theorem truncCnt_toNat (cfg : Params) (w : Word) :
    (truncCnt cfg w).toNat = w.toNat % 2 ^ cfg.cntBits := by
  have hle : 2 ^ cfg.cntBits ≤ 2 ^ 32 := Nat.pow_le_pow_right (by decide) cfg.cntBits_ok.2
  have hlt : w.toNat % 2 ^ cfg.cntBits < 2 ^ cfg.cntBits := Nat.mod_lt _ (Nat.two_pow_pos _)
  simp only [truncCnt, BitVec.toNat_setWidth]
  exact Nat.mod_eq_of_lt (by omega)

/-- A truncated word fits its CNT_BITS bits. -/
theorem truncCnt_lt (cfg : Params) (w : Word) : (truncCnt cfg w).toNat < 2 ^ cfg.cntBits := by
  rw [truncCnt_toNat]
  exact Nat.mod_lt _ (Nat.two_pow_pos _)

/-- A word that fits is left as it is. -/
theorem truncCnt_of_lt (cfg : Params) (w : Word) (h : w.toNat < 2 ^ cfg.cntBits) :
    truncCnt cfg w = w := by
  apply BitVec.eq_of_toNat_eq
  rw [truncCnt_toNat, Nat.mod_eq_of_lt h]

/-- Bit 16 of control_status is the count flag. -/
@[simp] theorem wrapDet_packCs (cf cs ti en : Bool) : wrapDet (packCs cf cs ti en) = cf := by
  revert cf cs ti en; decide

/-- Bit 0 of control_status is ENABLE. -/
@[simp] theorem dataEnable_packCs (cf cs ti en : Bool) : dataEnable (packCs cf cs ti en) = en := by
  revert cf cs ti en; decide

/-- Bit 1 of control_status is TICKINT. -/
@[simp] theorem dataTickint_packCs (cf cs ti en : Bool) : dataTickint (packCs cf cs ti en) = ti := by
  revert cf cs ti en; decide

/-- Bit 2 of control_status is CLKSOURCE. -/
@[simp] theorem dataClksource_packCs (cf cs ti en : Bool) :
    dataClksource (packCs cf cs ti en) = cs := by
  revert cf cs ti en; decide

/-- The reload computation gives a value exactly under its preconditions. -/
theorem reloadVal_eq_some (cfg : Params) (ms r : Nat) :
    reloadVal cfg ms = some r ↔
      (1 ≤ ms ∧ 1000 ≤ cfg.fCoreHz ∧ ms * (cfg.fCoreHz / 1000) ≤ 2 ^ cfg.cntBits) ∧
        r = ms * (cfg.fCoreHz / 1000) - 1 := by
  unfold reloadVal
  split <;> rename_i h
  · simp [h, eq_comm]
  · simp [h]

end Machine
end Sys2Proof
end

