-- ==== Sys2Proof/Laws/Bus.lean ====
section
/-! SUPPORT. The bus decoder at an offset from TIMER_BASE: an address of the block and its offset (R46), and the
operation word a transaction stands for (R51). -/

namespace Sys2Proof

/-- `TIMER_BASE + o` lies in the block for an offset of at most 15. -/
theorem inBlock_add (cfg : Params) (o : Word) (ho : o.toNat ≤ 15) :
    inBlock cfg (cfg.timerBase + o) = true := by
  have hb := cfg.timerBase_ok
  have ha : (cfg.timerBase + o).toNat = cfg.timerBase.toNat + o.toNat := by
    rw [BitVec.toNat_add]; omega
  simp only [inBlock, ha, Bool.and_eq_true, decide_eq_true_eq]
  omega

/-- The offset of `TIMER_BASE + o` is `o`. -/
theorem blockOffset_add (cfg : Params) (o : Word) :
    blockOffset cfg (cfg.timerBase + o) = o.setWidth 4 := by
  have h : cfg.timerBase + o - cfg.timerBase = o := by bv_omega
  rw [blockOffset, h]

/-- The offset of an address of the block is its distance from TIMER_BASE. -/
theorem blockOffset_toNat (cfg : Params) (a : Word) (h : inBlock cfg a = true) :
    (blockOffset cfg a).toNat = a.toNat - cfg.timerBase.toNat := by
  simp only [inBlock, Bool.and_eq_true, decide_eq_true_eq] at h
  have hs : (a - cfg.timerBase).toNat = a.toNat - cfg.timerBase.toNat := by bv_omega
  rw [blockOffset, BitVec.toNat_setWidth, hs]
  omega

/-- The tick counter cell lies outside the block (D17). -/
theorem inBlock_ticksAddr (cfg : Params) (a : Word) (h : cfg.ticksAddr = some a) :
    inBlock cfg a = false := by
  have hok := cfg.ticksAddr_ok
  rw [h] at hok
  simp only [ticksAddrOk, Bool.and_eq_true, Bool.or_eq_true, decide_eq_true_eq] at hok
  by_contra hin
  simp only [inBlock, Bool.not_eq_false, Bool.and_eq_true, decide_eq_true_eq] at hin
  omega

/-- A word access in the block decodes as the operation word `0b000 ++ we ++ off ++ wdata` (R51). -/
theorem decodeBus_inBlock (cfg : Params) (t : BusReq) (h : inBlock cfg t.addr = true)
    (h4 : t.size = 4) :
    decodeBus cfg t = decode ⟨busSelector t.isWrite (blockOffset cfg t.addr) ++ t.wdata, .arg⟩ := by
  simp [decodeBus, h, h4]

/-- A word read at an offset from TIMER_BASE (R46, R51). -/
theorem decodeBus_read (cfg : Params) (o : Word) (ho : o.toNat ≤ 15) :
    decodeBus cfg (.read (cfg.timerBase + o) 4) =
      decode ⟨busSelector false (o.setWidth 4) ++ (0 : Word), .arg⟩ := by
  rw [decodeBus_inBlock _ _ (inBlock_add cfg o ho) rfl]
  simp only [BusReq.addr, BusReq.isWrite, BusReq.wdata, blockOffset_add]

/-- A word write at an offset from TIMER_BASE (R46, R51). -/
theorem decodeBus_write (cfg : Params) (o d : Word) (ho : o.toNat ≤ 15) :
    decodeBus cfg (.write (cfg.timerBase + o) 4 d) =
      decode ⟨busSelector true (o.setWidth 4) ++ d, .arg⟩ := by
  rw [decodeBus_inBlock _ _ (inBlock_add cfg o ho) rfl]
  simp only [BusReq.addr, BusReq.isWrite, BusReq.wdata, blockOffset_add]

end Sys2Proof
end

