-- ==== Sys2Proof/Laws/State.lean ====
section
/-! SUPPORT. One lemma for each field of the state under each shared operation: what the operation leaves as it is,
and what it writes where that is one expression. Later proofs cite these and unfold no operation. -/

namespace Sys2Proof.Machine

variable (s : State)

/-! ### The two bus accesses -/

@[simp] theorem busRead_cfg (r : Reg) : (busRead r s).cfg = s.cfg := by cases r <;> rfl
@[simp] theorem busRead_enable (r : Reg) : (busRead r s).enable = s.enable := by cases r <;> rfl
@[simp] theorem busRead_tickint (r : Reg) : (busRead r s).tickint = s.tickint := by cases r <;> rfl
@[simp] theorem busRead_clksource (r : Reg) : (busRead r s).clksource = s.clksource := by cases r <;> rfl
@[simp] theorem busRead_reload (r : Reg) : (busRead r s).reload = s.reload := by cases r <;> rfl
@[simp] theorem busRead_current (r : Reg) : (busRead r s).current = s.current := by cases r <;> rfl
@[simp] theorem busRead_ticks (r : Reg) : (busRead r s).ticks = s.ticks := by cases r <;> rfl
@[simp] theorem busRead_irqPending (r : Reg) : (busRead r s).irqPending = s.irqPending := by cases r <;> rfl
@[simp] theorem busRead_gie (r : Reg) : (busRead r s).gie = s.gie := by cases r <;> rfl
@[simp] theorem busRead_period (r : Reg) : (busRead r s).period = s.period := by cases r <;> rfl
@[simp] theorem busRead_owned (r : Reg) : (busRead r s).owned = s.owned := by cases r <;> rfl
@[simp] theorem busRead_foreground (r : Reg) : (busRead r s).foreground = s.foreground := by cases r <;> rfl
@[simp] theorem busRead_inputs (r : Reg) : (busRead r s).inputs = s.inputs := by cases r <;> rfl
@[simp] theorem busRead_draws (r : Reg) : (busRead r s).draws = s.draws := by cases r <;> rfl
@[simp] theorem busRead_rdata (r : Reg) : (busRead r s).rdata = s.view r := by cases r <;> rfl
@[simp] theorem busRead_cs_countflag : (busRead .cs s).countflag = false := rfl
@[simp] theorem busRead_cs_hasWrapped : (busRead .cs s).hasWrapped = s.countflag :=
  wrapDet_packCs _ _ _ _
theorem busRead_hasWrapped_of_ne (r : Reg) (h : r ≠ .cs) : (busRead r s).hasWrapped = s.hasWrapped := by
  cases r <;> first | rfl | exact absurd rfl h
theorem busRead_countflag_of_ne (r : Reg) (h : r ≠ .cs) : (busRead r s).countflag = s.countflag := by
  cases r <;> first | rfl | exact absurd rfl h

@[simp] theorem busWrite_cfg (r : Reg) (v : Word) : (busWrite r v s).cfg = s.cfg := by cases r <;> rfl
@[simp] theorem busWrite_countflag (r : Reg) (v : Word) : (busWrite r v s).countflag = s.countflag := by cases r <;> rfl
@[simp] theorem busWrite_ticks (r : Reg) (v : Word) : (busWrite r v s).ticks = s.ticks := by cases r <;> rfl
@[simp] theorem busWrite_irqPending (r : Reg) (v : Word) : (busWrite r v s).irqPending = s.irqPending := by cases r <;> rfl
@[simp] theorem busWrite_gie (r : Reg) (v : Word) : (busWrite r v s).gie = s.gie := by cases r <;> rfl
@[simp] theorem busWrite_rdata (r : Reg) (v : Word) : (busWrite r v s).rdata = s.rdata := by cases r <;> rfl
@[simp] theorem busWrite_hasWrapped (r : Reg) (v : Word) : (busWrite r v s).hasWrapped = s.hasWrapped := by cases r <;> rfl
@[simp] theorem busWrite_period (r : Reg) (v : Word) : (busWrite r v s).period = s.period := by cases r <;> rfl
@[simp] theorem busWrite_owned (r : Reg) (v : Word) : (busWrite r v s).owned = s.owned := by cases r <;> rfl
@[simp] theorem busWrite_foreground (r : Reg) (v : Word) : (busWrite r v s).foreground = s.foreground := by cases r <;> rfl
@[simp] theorem busWrite_inputs (r : Reg) (v : Word) : (busWrite r v s).inputs = s.inputs := by cases r <;> rfl
@[simp] theorem busWrite_draws (r : Reg) (v : Word) : (busWrite r v s).draws = s.draws := by cases r <;> rfl
@[simp] theorem busWrite_cs_enable (v : Word) : (busWrite .cs v s).enable = dataEnable v := rfl
@[simp] theorem busWrite_cs_tickint (v : Word) : (busWrite .cs v s).tickint = dataTickint v := rfl
@[simp] theorem busWrite_cs_clksource (v : Word) : (busWrite .cs v s).clksource = dataClksource v := rfl
@[simp] theorem busWrite_cs_reload (v : Word) : (busWrite .cs v s).reload = s.reload := rfl
@[simp] theorem busWrite_cs_current (v : Word) : (busWrite .cs v s).current = s.current := rfl
@[simp] theorem busWrite_reload_reload (v : Word) : (busWrite .reload v s).reload = truncCnt s.cfg v := rfl
@[simp] theorem busWrite_current_current (v : Word) : (busWrite .current v s).current = truncCnt s.cfg v := rfl
@[simp] theorem busWrite_calib (v : Word) : busWrite .calib v s = s := rfl

/-! ### The read half of a MOD and the tick counter read -/

@[simp] theorem modifyRead_cfg (r : Reg) (f : Fn) : (modifyRead r f s).cfg = s.cfg := by cases r <;> rfl
@[simp] theorem modifyRead_enable (r : Reg) (f : Fn) : (modifyRead r f s).enable = s.enable := by cases r <;> rfl
@[simp] theorem modifyRead_tickint (r : Reg) (f : Fn) : (modifyRead r f s).tickint = s.tickint := by cases r <;> rfl
@[simp] theorem modifyRead_clksource (r : Reg) (f : Fn) : (modifyRead r f s).clksource = s.clksource := by cases r <;> rfl
@[simp] theorem modifyRead_reload (r : Reg) (f : Fn) : (modifyRead r f s).reload = s.reload := by cases r <;> rfl
@[simp] theorem modifyRead_current (r : Reg) (f : Fn) : (modifyRead r f s).current = s.current := by cases r <;> rfl
@[simp] theorem modifyRead_ticks (r : Reg) (f : Fn) : (modifyRead r f s).ticks = s.ticks := by cases r <;> rfl
@[simp] theorem modifyRead_irqPending (r : Reg) (f : Fn) : (modifyRead r f s).irqPending = s.irqPending := by cases r <;> rfl
@[simp] theorem modifyRead_gie (r : Reg) (f : Fn) : (modifyRead r f s).gie = s.gie := by cases r <;> rfl
@[simp] theorem modifyRead_period (r : Reg) (f : Fn) : (modifyRead r f s).period = s.period := by cases r <;> rfl
@[simp] theorem modifyRead_owned (r : Reg) (f : Fn) : (modifyRead r f s).owned = s.owned := by cases r <;> rfl
@[simp] theorem modifyRead_inputs (r : Reg) (f : Fn) : (modifyRead r f s).inputs = s.inputs := by cases r <;> rfl
@[simp] theorem modifyRead_draws (r : Reg) (f : Fn) : (modifyRead r f s).draws = s.draws := by cases r <;> rfl
@[simp] theorem modifyRead_rdata (r : Reg) (f : Fn) : (modifyRead r f s).rdata = s.view r := by
  cases r <;> rfl
@[simp] theorem modifyRead_hasWrapped (r : Reg) (f : Fn) :
    (modifyRead r f s).hasWrapped = (busRead r s).hasWrapped := rfl
@[simp] theorem modifyRead_countflag (r : Reg) (f : Fn) :
    (modifyRead r f s).countflag = (busRead r s).countflag := rfl
@[simp] theorem modifyRead_foreground (r : Reg) (f : Fn) :
    (modifyRead r f s).foreground = .write r (f.eval (s.view r)) :: s.foreground := rfl

@[simp] theorem readTicks_cfg  : (readTicks s).cfg = s.cfg := rfl
@[simp] theorem readTicks_enable  : (readTicks s).enable = s.enable := rfl
@[simp] theorem readTicks_tickint  : (readTicks s).tickint = s.tickint := rfl
@[simp] theorem readTicks_clksource  : (readTicks s).clksource = s.clksource := rfl
@[simp] theorem readTicks_countflag  : (readTicks s).countflag = s.countflag := rfl
@[simp] theorem readTicks_reload  : (readTicks s).reload = s.reload := rfl
@[simp] theorem readTicks_current  : (readTicks s).current = s.current := rfl
@[simp] theorem readTicks_ticks  : (readTicks s).ticks = s.ticks := rfl
@[simp] theorem readTicks_irqPending  : (readTicks s).irqPending = s.irqPending := rfl
@[simp] theorem readTicks_gie  : (readTicks s).gie = s.gie := rfl
@[simp] theorem readTicks_hasWrapped  : (readTicks s).hasWrapped = s.hasWrapped := rfl
@[simp] theorem readTicks_period  : (readTicks s).period = s.period := rfl
@[simp] theorem readTicks_owned  : (readTicks s).owned = s.owned := rfl
@[simp] theorem readTicks_foreground  : (readTicks s).foreground = s.foreground := rfl
@[simp] theorem readTicks_inputs  : (readTicks s).inputs = s.inputs := rfl
@[simp] theorem readTicks_draws  : (readTicks s).draws = s.draws := rfl
@[simp] theorem readTicks_rdata : (readTicks s).rdata = s.ticks := rfl

/-! ### Count steps and pulses -/

@[simp] theorem countStep_cfg  : (countStep s).cfg = s.cfg := by unfold countStep; split <;> [rfl; (split <;> rfl)]
@[simp] theorem countStep_enable  : (countStep s).enable = s.enable := by unfold countStep; split <;> [rfl; (split <;> rfl)]
@[simp] theorem countStep_tickint  : (countStep s).tickint = s.tickint := by unfold countStep; split <;> [rfl; (split <;> rfl)]
@[simp] theorem countStep_clksource  : (countStep s).clksource = s.clksource := by unfold countStep; split <;> [rfl; (split <;> rfl)]
@[simp] theorem countStep_reload  : (countStep s).reload = s.reload := by unfold countStep; split <;> [rfl; (split <;> rfl)]
@[simp] theorem countStep_ticks  : (countStep s).ticks = s.ticks := by unfold countStep; split <;> [rfl; (split <;> rfl)]
@[simp] theorem countStep_gie  : (countStep s).gie = s.gie := by unfold countStep; split <;> [rfl; (split <;> rfl)]
@[simp] theorem countStep_rdata  : (countStep s).rdata = s.rdata := by unfold countStep; split <;> [rfl; (split <;> rfl)]
@[simp] theorem countStep_hasWrapped  : (countStep s).hasWrapped = s.hasWrapped := by unfold countStep; split <;> [rfl; (split <;> rfl)]
@[simp] theorem countStep_period  : (countStep s).period = s.period := by unfold countStep; split <;> [rfl; (split <;> rfl)]
@[simp] theorem countStep_owned  : (countStep s).owned = s.owned := by unfold countStep; split <;> [rfl; (split <;> rfl)]
@[simp] theorem countStep_foreground  : (countStep s).foreground = s.foreground := by unfold countStep; split <;> [rfl; (split <;> rfl)]
@[simp] theorem countStep_inputs  : (countStep s).inputs = s.inputs := by unfold countStep; split <;> [rfl; (split <;> rfl)]
@[simp] theorem countStep_draws  : (countStep s).draws = s.draws := by unfold countStep; split <;> [rfl; (split <;> rfl)]

@[simp] theorem clockPulse_cfg (c : Bool) : (clockPulse c s).cfg = s.cfg := by unfold clockPulse; split <;> simp
@[simp] theorem clockPulse_enable (c : Bool) : (clockPulse c s).enable = s.enable := by unfold clockPulse; split <;> simp
@[simp] theorem clockPulse_tickint (c : Bool) : (clockPulse c s).tickint = s.tickint := by unfold clockPulse; split <;> simp
@[simp] theorem clockPulse_clksource (c : Bool) : (clockPulse c s).clksource = s.clksource := by unfold clockPulse; split <;> simp
@[simp] theorem clockPulse_reload (c : Bool) : (clockPulse c s).reload = s.reload := by unfold clockPulse; split <;> simp
@[simp] theorem clockPulse_ticks (c : Bool) : (clockPulse c s).ticks = s.ticks := by unfold clockPulse; split <;> simp
@[simp] theorem clockPulse_gie (c : Bool) : (clockPulse c s).gie = s.gie := by unfold clockPulse; split <;> simp
@[simp] theorem clockPulse_rdata (c : Bool) : (clockPulse c s).rdata = s.rdata := by unfold clockPulse; split <;> simp
@[simp] theorem clockPulse_hasWrapped (c : Bool) : (clockPulse c s).hasWrapped = s.hasWrapped := by unfold clockPulse; split <;> simp
@[simp] theorem clockPulse_period (c : Bool) : (clockPulse c s).period = s.period := by unfold clockPulse; split <;> simp
@[simp] theorem clockPulse_owned (c : Bool) : (clockPulse c s).owned = s.owned := by unfold clockPulse; split <;> simp
@[simp] theorem clockPulse_foreground (c : Bool) : (clockPulse c s).foreground = s.foreground := by unfold clockPulse; split <;> simp
@[simp] theorem clockPulse_inputs (c : Bool) : (clockPulse c s).inputs = s.inputs := by unfold clockPulse; split <;> simp
@[simp] theorem clockPulse_draws (c : Bool) : (clockPulse c s).draws = s.draws := by unfold clockPulse; split <;> simp

/-! ### Interrupt and reset -/

@[simp] theorem takeInterrupt_cfg  : (takeInterrupt s).cfg = s.cfg := by
  unfold takeInterrupt returnFromHandler runHandler; split <;> rfl
@[simp] theorem takeInterrupt_enable  : (takeInterrupt s).enable = s.enable := by
  unfold takeInterrupt returnFromHandler runHandler; split <;> rfl
@[simp] theorem takeInterrupt_tickint  : (takeInterrupt s).tickint = s.tickint := by
  unfold takeInterrupt returnFromHandler runHandler; split <;> rfl
@[simp] theorem takeInterrupt_clksource  : (takeInterrupt s).clksource = s.clksource := by
  unfold takeInterrupt returnFromHandler runHandler; split <;> rfl
@[simp] theorem takeInterrupt_countflag  : (takeInterrupt s).countflag = s.countflag := by
  unfold takeInterrupt returnFromHandler runHandler; split <;> rfl
@[simp] theorem takeInterrupt_reload  : (takeInterrupt s).reload = s.reload := by
  unfold takeInterrupt returnFromHandler runHandler; split <;> rfl
@[simp] theorem takeInterrupt_current  : (takeInterrupt s).current = s.current := by
  unfold takeInterrupt returnFromHandler runHandler; split <;> rfl
@[simp] theorem takeInterrupt_gie  : (takeInterrupt s).gie = s.gie := by
  unfold takeInterrupt returnFromHandler runHandler; split <;> rfl
@[simp] theorem takeInterrupt_rdata  : (takeInterrupt s).rdata = s.rdata := by
  unfold takeInterrupt returnFromHandler runHandler; split <;> rfl
@[simp] theorem takeInterrupt_hasWrapped  : (takeInterrupt s).hasWrapped = s.hasWrapped := by
  unfold takeInterrupt returnFromHandler runHandler; split <;> rfl
@[simp] theorem takeInterrupt_period  : (takeInterrupt s).period = s.period := by
  unfold takeInterrupt returnFromHandler runHandler; split <;> rfl
@[simp] theorem takeInterrupt_owned  : (takeInterrupt s).owned = s.owned := by
  unfold takeInterrupt returnFromHandler runHandler; split <;> rfl
@[simp] theorem takeInterrupt_foreground  : (takeInterrupt s).foreground = s.foreground := by
  unfold takeInterrupt returnFromHandler runHandler; split <;> rfl
@[simp] theorem takeInterrupt_inputs  : (takeInterrupt s).inputs = s.inputs := by
  unfold takeInterrupt returnFromHandler runHandler; split <;> rfl
@[simp] theorem takeInterrupt_draws  : (takeInterrupt s).draws = s.draws := by
  unfold takeInterrupt returnFromHandler runHandler; split <;> rfl
@[simp] theorem takeInterrupt_irqPending : (takeInterrupt s).irqPending = false := by
  unfold takeInterrupt returnFromHandler runHandler; split <;> rfl
@[simp] theorem takeInterrupt_ticks :
    (takeInterrupt s).ticks = if s.cfg.handlerWired then tickUpd s.ticks else s.ticks := by
  cases hw : s.cfg.handlerWired <;>
    simp [takeInterrupt, returnFromHandler, runHandler, enterInterrupt, defaultHandler, hw]

@[simp] theorem resetBlock_cfg  : (resetBlock s).cfg = s.cfg := rfl
@[simp] theorem resetBlock_gie  : (resetBlock s).gie = s.gie := rfl
@[simp] theorem resetBlock_rdata  : (resetBlock s).rdata = s.rdata := rfl
@[simp] theorem resetBlock_hasWrapped  : (resetBlock s).hasWrapped = s.hasWrapped := rfl
@[simp] theorem resetBlock_period  : (resetBlock s).period = s.period := rfl
@[simp] theorem resetBlock_owned  : (resetBlock s).owned = s.owned := rfl
@[simp] theorem resetBlock_foreground  : (resetBlock s).foreground = s.foreground := rfl
@[simp] theorem resetBlock_inputs  : (resetBlock s).inputs = s.inputs := rfl
@[simp] theorem resetBlock_enable : (resetBlock s).enable = false := rfl
@[simp] theorem resetBlock_tickint : (resetBlock s).tickint = false := rfl
@[simp] theorem resetBlock_clksource : (resetBlock s).clksource = false := rfl
@[simp] theorem resetBlock_countflag : (resetBlock s).countflag = false := rfl
@[simp] theorem resetBlock_irqPending : (resetBlock s).irqPending = false := rfl
@[simp] theorem resetBlock_ticks : (resetBlock s).ticks = 0 := rfl

/-! ### GIE -/

@[simp] theorem setGie_cfg (b : Bool) : (setGie b s).cfg = s.cfg := rfl
@[simp] theorem setGie_enable (b : Bool) : (setGie b s).enable = s.enable := rfl
@[simp] theorem setGie_tickint (b : Bool) : (setGie b s).tickint = s.tickint := rfl
@[simp] theorem setGie_clksource (b : Bool) : (setGie b s).clksource = s.clksource := rfl
@[simp] theorem setGie_countflag (b : Bool) : (setGie b s).countflag = s.countflag := rfl
@[simp] theorem setGie_reload (b : Bool) : (setGie b s).reload = s.reload := rfl
@[simp] theorem setGie_current (b : Bool) : (setGie b s).current = s.current := rfl
@[simp] theorem setGie_ticks (b : Bool) : (setGie b s).ticks = s.ticks := rfl
@[simp] theorem setGie_irqPending (b : Bool) : (setGie b s).irqPending = s.irqPending := rfl
@[simp] theorem setGie_rdata (b : Bool) : (setGie b s).rdata = s.rdata := rfl
@[simp] theorem setGie_hasWrapped (b : Bool) : (setGie b s).hasWrapped = s.hasWrapped := rfl
@[simp] theorem setGie_period (b : Bool) : (setGie b s).period = s.period := rfl
@[simp] theorem setGie_owned (b : Bool) : (setGie b s).owned = s.owned := rfl
@[simp] theorem setGie_foreground (b : Bool) : (setGie b s).foreground = s.foreground := rfl
@[simp] theorem setGie_inputs (b : Bool) : (setGie b s).inputs = s.inputs := rfl
@[simp] theorem setGie_draws (b : Bool) : (setGie b s).draws = s.draws := rfl
@[simp] theorem setGie_gie (b : Bool) : (setGie b s).gie = b := rfl

end Sys2Proof.Machine
end

