-- ==== Sys2Proof/Laws/Ops.lean ====
section
/-! SUPPORT. What each shared operation can do, said once: the cases of a count step and of a pulse, the kinds of state
an operation and a step can answer with. Later proofs split these and unfold neither `exec` nor `step`. -/

namespace Sys2Proof.Machine

variable {s t : State}

/-- A count step holds, wraps or decrements (R75). -/
theorem countStep_cases (s : State) :
    (s.enable = false ∧ countStep s = s) ∨
    (s.enable = true ∧ s.current = 0 ∧
      countStep s =
        { s with current := s.reload, countflag := true, irqPending := s.tickint || s.irqPending }) ∨
    (s.enable = true ∧ s.current ≠ 0 ∧ countStep s = { s with current := s.current - 1 }) := by
  unfold countStep
  by_cases he : s.enable = false
  · exact .inl ⟨he, if_pos he⟩
  · rw [if_neg he]
    by_cases hc : s.current = 0
    · exact .inr (.inl ⟨by simpa using he, hc, if_pos hc⟩)
    · exact .inr (.inr ⟨by simpa using he, hc, if_neg hc⟩)

/-- A pulse of an unselected clock does nothing; one of the selected clock is a count step (R76, R77). -/
theorem clockPulse_cases (c : Bool) (s : State) :
    (s.clksource ≠ c ∧ clockPulse c s = s) ∨ (s.clksource = c ∧ clockPulse c s = countStep s) := by
  unfold clockPulse
  by_cases h : s.clksource = c
  · simp [h]
  · simp [h]

/-- The accesses of a register are the foreground's, and the one that reads control_status is of that register. -/
@[simp] theorem agent_rd (r : Reg) : (Instr.rd r).agent = .foreground := by cases r <;> rfl
@[simp] theorem agent_wr (r : Reg) (v : Word) : (Instr.wr r v).agent = .foreground := by cases r <;> rfl
@[simp] theorem agent_md (r : Reg) (f : Fn) : (Instr.md r f).agent = .foreground := by cases r <;> rfl
@[simp] theorem agent_rdTicks : Instr.rdTicks.agent = .foreground := rfl
@[simp] theorem readsCs_rd (r : Reg) : (Instr.rd r).readsCs = decide (r = .cs) := by cases r <;> rfl
@[simp] theorem readsCs_wr (r : Reg) (v : Word) : (Instr.wr r v).readsCs = false := by cases r <;> rfl
@[simp] theorem readsCs_md (r : Reg) (f : Fn) : (Instr.md r f).readsCs = decide (r = .cs) := by
  cases r <;> rfl

/-- No access of a register is a wrap event. -/
@[simp] theorem isWrapEvent_rd (r : Reg) : isWrapEvent (.rd r) s = false := by cases r <;> rfl
@[simp] theorem isWrapEvent_wr (r : Reg) (v : Word) : isWrapEvent (.wr r v) s = false := by cases r <;> rfl
@[simp] theorem isWrapEvent_md (r : Reg) (f : Fn) : isWrapEvent (.md r f) s = false := by cases r <;> rfl

/-- Which pulses count depends on CLKSOURCE alone (R26). -/
theorem isSelectedPulse_of_clksource (h : t.clksource = s.clksource) (i : Instr) :
    isSelectedPulse i t = isSelectedPulse i s := by
  cases i <;> simp only [isSelectedPulse, h]

/-- Everything an operation that answers a next state can do. -/
theorem exec_next_cases {i : Instr} (h : exec i s = .next t) :
    (∃ r, i = .rd r ∧ t = busRead r s) ∨
    (∃ r v, i = .wr r v ∧ t = busWrite r v s) ∨
    (∃ r f, i = .md r f ∧ t = modifyRead r f s) ∨
    (i = .rdTicks ∧ t = readTicks s) ∨
    (i = .tickCore ∧ t = clockPulse true s) ∨
    (i = .tickRef ∧ t = clockPulse false s) ∨
    (i = .irqTake ∧ s.irqPending = true ∧ s.gie = true ∧ t = takeInterrupt s) ∨
    (i = .irqSpur ∧ s.gie = true ∧ t = s) ∨
    (i = .reset ∧ t = resetBlock s) := by
  have next_inj {a b : State} (h : Host.Outcome.next (φ := Fault) (ρ := Refusal) a = .next b) : b = a := by
    injection h with h; exact h.symm
  cases i with
  | rdCs => exact .inl ⟨.cs, rfl, next_inj h⟩
  | rdReload => exact .inl ⟨.reload, rfl, next_inj h⟩
  | rdCurrent => exact .inl ⟨.current, rfl, next_inj h⟩
  | rdCalib => exact .inl ⟨.calib, rfl, next_inj h⟩
  | wrCs v => exact .inr (.inl ⟨.cs, v, rfl, next_inj h⟩)
  | wrReload v => exact .inr (.inl ⟨.reload, v, rfl, next_inj h⟩)
  | wrCurrent v => exact .inr (.inl ⟨.current, v, rfl, next_inj h⟩)
  | wrCalib v => exact .inr (.inl ⟨.calib, v, rfl, next_inj h⟩)
  | modCs f => exact .inr (.inr (.inl ⟨.cs, f, rfl, next_inj h⟩))
  | modReload f => exact .inr (.inr (.inl ⟨.reload, f, rfl, next_inj h⟩))
  | modCurrent f => exact .inr (.inr (.inl ⟨.current, f, rfl, next_inj h⟩))
  | modCalib f => exact .inr (.inr (.inl ⟨.calib, f, rfl, next_inj h⟩))
  | rdTicks => exact .inr (.inr (.inr (.inl ⟨rfl, next_inj h⟩)))
  | tickCore => exact .inr (.inr (.inr (.inr (.inl ⟨rfl, next_inj h⟩))))
  | tickRef => exact .inr (.inr (.inr (.inr (.inr (.inl ⟨rfl, next_inj h⟩)))))
  | irqTake =>
    simp only [exec, execIrqTake] at h
    split at h
    · rename_i hb
      simp only [Bool.and_eq_true] at hb
      exact .inr (.inr (.inr (.inr (.inr (.inr (.inl ⟨rfl, hb.1, hb.2, next_inj h⟩))))))
    · cases h
  | irqSpur =>
    simp only [exec, execIrqSpur, defaultHandler] at h
    split at h
    · rename_i hb
      exact .inr (.inr (.inr (.inr (.inr (.inr (.inr (.inl ⟨rfl, hb, next_inj h⟩)))))))
    · cases h
  | reset => exact .inr (.inr (.inr (.inr (.inr (.inr (.inr (.inr ⟨rfl, next_inj h⟩)))))))

/-- An operation that answers a next state leaves the parameters, GIE, the variables of the Tick Timer and the
inputs as they are. -/
theorem exec_next_frame {i : Instr} (h : exec i s = .next t) :
    t.cfg = s.cfg ∧ t.gie = s.gie ∧ t.period = s.period ∧ t.owned = s.owned ∧ t.inputs = s.inputs := by
  obtain ⟨r, -, rfl⟩ | ⟨r, v, -, rfl⟩ | ⟨r, f, -, rfl⟩ | ⟨-, rfl⟩ | ⟨-, rfl⟩ | ⟨-, rfl⟩ | ⟨-, -, -, rfl⟩ |
    ⟨-, -, rfl⟩ | ⟨-, rfl⟩ := exec_next_cases h <;> simp

/-- An event leaves what the foreground has in progress, what it last read and the output `has_wrapped` as they are. -/
theorem exec_event_frame {i : Instr} (hi : i.agent ≠ .foreground) (h : exec i s = .next t) :
    t.foreground = s.foreground ∧ t.rdata = s.rdata ∧ t.hasWrapped = s.hasWrapped := by
  obtain ⟨r, rfl, -⟩ | ⟨r, v, rfl, -⟩ | ⟨r, f, rfl, -⟩ | ⟨rfl, -⟩ | ⟨-, rfl⟩ | ⟨-, rfl⟩ | ⟨-, -, -, rfl⟩ |
    ⟨-, -, rfl⟩ | ⟨-, rfl⟩ := exec_next_cases h
  all_goals first | (simp at hi; done) | simp

/-- The flag and the request after a pulse (R75): set by a wrap event, kept otherwise. -/
theorem clockPulse_countflag (c : Bool) (s : State) :
    (clockPulse c s).countflag =
      (s.countflag || (s.clksource == c && s.enable && s.current == 0)) := by
  obtain ⟨h0, h⟩ | ⟨h0, h⟩ := clockPulse_cases c s <;> rw [h]
  · simp [h0]
  · obtain ⟨h1, h⟩ | ⟨h1, h2, h⟩ | ⟨-, h2, h⟩ := countStep_cases s <;> rw [h]
    · simp [h1]
    · simp [h0, h1, h2]
    · have hc : (s.current == 0) = false := by simpa using h2
      simp only [hc]; simp

theorem clockPulse_irqPending (c : Bool) (s : State) :
    (clockPulse c s).irqPending =
      (s.irqPending || (s.clksource == c && s.enable && s.current == 0 && s.tickint)) := by
  obtain ⟨h0, h⟩ | ⟨h0, h⟩ := clockPulse_cases c s <;> rw [h]
  · simp [h0]
  · obtain ⟨h1, h⟩ | ⟨h1, h2, h⟩ | ⟨-, h2, h⟩ := countStep_cases s <;> rw [h]
    · simp [h1]
    · simp [h0, h1, h2, Bool.or_comm]
    · have hc : (s.current == 0) = false := by simpa using h2
      simp only [hc]; simp

/-- A run of operations is its first operation and the run of the rest. -/
theorem execAll_cons_next {i : Instr} {l : List Instr} (h : execAll (i :: l) s = .next t) :
    ∃ u, exec i s = .next u ∧ execAll l u = .next t := by
  simp only [execAll] at h
  cases hi : exec i s with
  | next u => rw [hi] at h; exact ⟨u, rfl, h⟩
  | fault r => cases r
  | refused r => rw [hi] at h; cases h

/-- A run of steps is its first step and the run of the rest. -/
theorem runSteps_succ_next {k : Nat} (h : runSteps (k + 1) s = .next t) :
    ∃ u, step s = .next u ∧ runSteps k u = .next t := by
  simp only [runSteps] at h
  cases hs : step s with
  | next u => rw [hs] at h; exact ⟨u, rfl, h⟩
  | fault r => cases r
  | refused r => rw [hs] at h; cases h

/-- A relation between states that is reflexive and is carried back over each operation of a kind holds from the
start to the end of a run of such operations. -/
theorem execAll_induction {P : State → State → Prop} (ok : Instr → Prop) (refl : ∀ s, P s s)
    (cons : ∀ i s u t, ok i → exec i s = .next u → P u t → P s t) {l : List Instr}
    (hl : ∀ i ∈ l, ok i) (h : execAll l s = .next t) : P s t := by
  induction l generalizing s with
  | nil => cases h; exact refl _
  | cons i l ih =>
    obtain ⟨u, hi, hu⟩ := execAll_cons_next h
    exact cons i s u t (hl i (by simp)) hi (ih (fun j hj => hl j (by simp [hj])) hu)

/-- Everything a step that answers a next state can do, by whose turn it is. -/
theorem step_next_cases (h : step s = .next t) :
    (s.turn = .idle ∧ t = s) ∨
    (∃ rest, s.turn = .skip rest ∧ t = { s with inputs := rest }) ∨
    (∃ b rest, s.turn = .gie b rest ∧ t = setGie b { s with inputs := rest }) ∨
    (∃ p ps rest, s.turn = .goOn p ps rest ∧
      t = runPending p { s with foreground := ps, inputs := rest }) ∨
    (∃ c rest, s.turn = .call c rest ∧ startCall c { s with inputs := rest } = .next t) ∨
    (∃ i rest, s.turn = .run i rest ∧ exec i { s with inputs := rest } = .next t) := by
  unfold step at h
  cases ht : s.turn with
  | idle => rw [ht] at h; injection h with h; exact .inl ⟨rfl, h.symm⟩
  | skip rest => rw [ht] at h; injection h with h; exact .inr (.inl ⟨rest, rfl, h.symm⟩)
  | gie b rest => rw [ht] at h; injection h with h; exact .inr (.inr (.inl ⟨b, rest, rfl, h.symm⟩))
  | goOn p ps rest =>
    rw [ht] at h; injection h with h
    exact .inr (.inr (.inr (.inl ⟨p, ps, rest, rfl, h.symm⟩)))
  | call c rest => rw [ht] at h; exact .inr (.inr (.inr (.inr (.inl ⟨c, rest, rfl, h⟩))))
  | run i rest => rw [ht] at h; exact .inr (.inr (.inr (.inr (.inr ⟨i, rest, rfl, h⟩))))
  | refuse why => rw [ht] at h; cases h

/-- Everything the start of a driver sequence can do. -/
theorem startCall_next_cases {c : Call} (h : startCall c s = .next t) :
    (c = .new ∧ s.owned = false ∧ t = { s with owned := true }) ∨
    (∃ ms r, c = .init ms ∧ reloadVal s.cfg ms.toNat = some r ∧
      t = { s with
        period := ms.toNat
        foreground :=
          initSequence (s.cfg.variant == .interrupt) (BitVec.ofNat 32 r) ++ s.foreground }) ∨
    (∃ ms, c = .delayMs ms ∧ s.period ≠ 0 ∧ s.cfg.variant = .polling ∧
      t = { s with foreground := pollRest (ms.toNat / s.period) ++ s.foreground }) ∨
    (∃ ms, c = .delayMs ms ∧ s.period ≠ 0 ∧ s.cfg.variant = .interrupt ∧
      t = { s with foreground := .sample (ms.toNat / s.period) :: s.foreground }) ∨
    (∃ p, callAccess c = some p ∧ t = { s with foreground := p :: s.foreground }) := by
  have next_inj {a b : State} (h : Host.Outcome.next (φ := Fault) (ρ := Refusal) a = .next b) : b = a := by
    injection h with h; exact h.symm
  cases c with
  | new =>
    simp only [startCall, startNew] at h
    split at h
    · cases h
    · rename_i ho
      exact .inl ⟨rfl, by simpa using ho, next_inj h⟩
  | init ms =>
    simp only [startCall, startInit] at h
    split at h
    · cases h
    · rename_i r hr
      exact .inr (.inl ⟨ms, r, rfl, hr, next_inj h⟩)
  | delayMs ms =>
    simp only [startCall, startDelay] at h
    split at h
    · cases h
    · rename_i hp
      split at h
      · rename_i hv; exact .inr (.inr (.inl ⟨ms, rfl, hp, hv, next_inj h⟩))
      · rename_i hv; exact .inr (.inr (.inr (.inl ⟨ms, rfl, hp, hv, next_inj h⟩)))
  | hasWrapped => exact .inr (.inr (.inr (.inr ⟨_, rfl, next_inj h⟩)))
  | setReload v => exact .inr (.inr (.inr (.inr ⟨_, rfl, next_inj h⟩)))
  | enableCounter => exact .inr (.inr (.inr (.inr ⟨_, rfl, next_inj h⟩)))
  | disableCounter => exact .inr (.inr (.inr (.inr ⟨_, rfl, next_inj h⟩)))
  | enableInterrupt => exact .inr (.inr (.inr (.inr ⟨_, rfl, next_inj h⟩)))
  | disableInterrupt => exact .inr (.inr (.inr (.inr ⟨_, rfl, next_inj h⟩)))
  | ticks => exact .inr (.inr (.inr (.inr ⟨_, rfl, next_inj h⟩)))

/-- One turn of a polling delay that is not over: one read of control_status, and one observation less if it found the
flag set (R103). -/
theorem pollTurn_of_ne {n : Nat} (hn : n ≠ 0) :
    pollTurn n s = { busRead .cs s with
      foreground := pollRest (if s.countflag then n - 1 else n) ++ s.foreground } := by
  simp only [pollTurn, hn, if_false, busRead_rdata, busRead_foreground]
  rw [State.view, wrapDet_packCs]

/-- The first sample of an interrupt-driven delay (R104). -/
theorem sampleTurn_eq (needed : Nat) :
    sampleTurn needed s = { s with
      rdata := s.ticks, foreground := watchRest needed 0 s.ticks ++ s.foreground } := rfl

/-- One turn of an interrupt-driven delay that is not over: one read of the tick counter, which counts if it differs from
the value last seen (R104). -/
theorem watchTurn_of_ne {needed n : Nat} {last : Word} (hn : n ≠ needed) :
    watchTurn needed n last s = { s with
      rdata := s.ticks
      foreground :=
        (if s.ticks ≠ last then watchRest needed (n + 1) s.ticks else watchRest needed n last) ++
          s.foreground } := by
  simp only [watchTurn, hn, if_false]
  rfl

/-- A turn of the foreground leaves the tick counter, the request, GIE, the parameters, the Tick Timer's
variables, the inputs and the draws as they are. -/
theorem runPending_frame (p : Pending) (s : State) :
    (runPending p s).cfg = s.cfg ∧ (runPending p s).ticks = s.ticks ∧
    (runPending p s).irqPending = s.irqPending ∧ (runPending p s).gie = s.gie ∧
    (runPending p s).period = s.period ∧ (runPending p s).owned = s.owned ∧
    (runPending p s).inputs = s.inputs ∧ (runPending p s).draws = s.draws := by
  cases p with
  | read r => simp [runPending]
  | write r v => simp [runPending]
  | modify r f => simp [runPending]
  | readTicks => simp [runPending]
  | poll n => simp only [runPending, pollTurn]; split <;> simp
  | sample needed => simp [runPending, sampleTurn]
  | watch needed n last => simp only [runPending, watchTurn]; split <;> simp

end Sys2Proof.Machine
end

