-- ==== Sys2Proof/Laws/PerInstr.lean ====
section
/-! SUPPORT. The family `WordForm`: what the operation word of each operation looks like (R47). -/

namespace Sys2Proof.Laws.WordForm

/-- `kind` of a format (R47). -/
def kindOf : Format → BitVec 3
  | .bus => 0b000
  | .seq => 0b001
  | .port => 0b010
  | .evt => 0b100

/-- The word of an operation is well-formed, and the kind in its selector is that of the operation's format. -/
def Statement (i : Instr) : Prop :=
  (encode i).wellFormed = true ∧ selectorKind (encode i).selector = kindOf i.format

theorem rdCs : Statement .rdCs := by unfold Statement; decide
theorem rdReload : Statement .rdReload := by unfold Statement; decide
theorem rdCurrent : Statement .rdCurrent := by unfold Statement; decide
theorem rdCalib : Statement .rdCalib := by unfold Statement; decide
theorem wrCs (d : Word) : Statement (.wrCs d) := by
  simp only [Statement, encode, OpWord.wellFormed, selector_append, wdata_append, Instr.opsel,
    Instr.encodedData, Instr.encodedFn]
  simp [selectors, selectorIsWrite, selectorIsModify, selectorKind, selectorWe, Instr.format, kindOf]
theorem wrReload (d : Word) : Statement (.wrReload d) := by
  simp only [Statement, encode, OpWord.wellFormed, selector_append, wdata_append, Instr.opsel,
    Instr.encodedData, Instr.encodedFn]
  simp [selectors, selectorIsWrite, selectorIsModify, selectorKind, selectorWe, Instr.format, kindOf]
theorem wrCurrent (d : Word) : Statement (.wrCurrent d) := by
  simp only [Statement, encode, OpWord.wellFormed, selector_append, wdata_append, Instr.opsel,
    Instr.encodedData, Instr.encodedFn]
  simp [selectors, selectorIsWrite, selectorIsModify, selectorKind, selectorWe, Instr.format, kindOf]
theorem wrCalib (d : Word) : Statement (.wrCalib d) := by
  simp only [Statement, encode, OpWord.wellFormed, selector_append, wdata_append, Instr.opsel,
    Instr.encodedData, Instr.encodedFn]
  simp [selectors, selectorIsWrite, selectorIsModify, selectorKind, selectorWe, Instr.format, kindOf]
theorem modCs (f : Fn) : Statement (.modCs f) := by
  simp only [Statement, encode, OpWord.wellFormed, selector_append, wdata_append, Instr.opsel,
    Instr.encodedData, Instr.encodedFn]
  simp [selectors, selectorIsWrite, selectorIsModify, selectorKind, selectorWe, Instr.format, kindOf]
theorem modReload (f : Fn) : Statement (.modReload f) := by
  simp only [Statement, encode, OpWord.wellFormed, selector_append, wdata_append, Instr.opsel,
    Instr.encodedData, Instr.encodedFn]
  simp [selectors, selectorIsWrite, selectorIsModify, selectorKind, selectorWe, Instr.format, kindOf]
theorem modCurrent (f : Fn) : Statement (.modCurrent f) := by
  simp only [Statement, encode, OpWord.wellFormed, selector_append, wdata_append, Instr.opsel,
    Instr.encodedData, Instr.encodedFn]
  simp [selectors, selectorIsWrite, selectorIsModify, selectorKind, selectorWe, Instr.format, kindOf]
theorem modCalib (f : Fn) : Statement (.modCalib f) := by
  simp only [Statement, encode, OpWord.wellFormed, selector_append, wdata_append, Instr.opsel,
    Instr.encodedData, Instr.encodedFn]
  simp [selectors, selectorIsWrite, selectorIsModify, selectorKind, selectorWe, Instr.format, kindOf]
theorem rdTicks : Statement .rdTicks := by unfold Statement; decide
theorem tickCore : Statement .tickCore := by unfold Statement; decide
theorem tickRef : Statement .tickRef := by unfold Statement; decide
theorem irqTake : Statement .irqTake := by unfold Statement; decide
theorem irqSpur : Statement .irqSpur := by unfold Statement; decide
theorem reset : Statement .reset := by unfold Statement; decide

end Sys2Proof.Laws.WordForm
end

