-- ==== Sys2Proof/Laws/Turn.lean ====
section
/-! SUPPORT. Whose turn it is, form by form of the next input, and what a turn says about the foreground. -/

namespace Sys2Proof.Machine

variable {s : State}

/-- An event at the head of the inputs runs at once (R39). -/
theorem turn_of_event {w : OpWord} {i : Instr} {rest : List Input} (hx : s.inputs = .op w :: rest)
    (hd : decode w = .ok i) (hi : i.agent ≠ .foreground) : s.turn = .run i rest := by
  simp [State.turn, hx, operationTurn, hd, hi]

/-- Any operation runs at once when the foreground has nothing in progress (R38). -/
theorem turn_of_free {w : OpWord} {i : Instr} {rest : List Input} (hx : s.inputs = .op w :: rest)
    (hd : decode w = .ok i) (hf : s.foreground = []) : s.turn = .run i rest := by
  simp [State.turn, hx, operationTurn, hd, foregroundTurn, hf]

/-- The foreground's turn. -/
theorem turn_of_resume {p : Pending} {ps : List Pending} {rest : List Input}
    (hx : s.inputs = .resume :: rest) (hf : s.foreground = p :: ps) : s.turn = .goOn p ps rest := by
  simp [State.turn, hx, resumeTurn, hf]

/-- The foreground goes on alone when no input is left. -/
theorem turn_of_nil {p : Pending} {ps : List Pending} (hx : s.inputs = [])
    (hf : s.foreground = p :: ps) : s.turn = .goOn p ps [] := by
  simp [State.turn, hx, hf]

/-- A driver sequence starts when the foreground has nothing in progress. -/
theorem turn_of_call {c : Call} {rest : List Input} (hx : s.inputs = .call c :: rest)
    (hf : s.foreground = []) : s.turn = .call c rest := by
  simp [State.turn, hx, foregroundTurn, hf]

/-- The turn of a ready foreground action is the action, or the foreground's first thing in progress. -/
theorem foregroundTurn_cases (s : State) (ready : Turn) :
    (s.foreground = [] ∧ foregroundTurn s ready = ready) ∨
    (∃ p ps, s.foreground = p :: ps ∧ foregroundTurn s ready = .goOn p ps s.inputs) := by
  unfold foregroundTurn
  cases hf : s.foreground with
  | nil => exact .inl ⟨rfl, rfl⟩
  | cons p ps => exact .inr ⟨p, ps, rfl, rfl⟩

/-- What goes on is the first thing the foreground has in progress. -/
theorem turn_goOn_foreground {p : Pending} {ps : List Pending} {rest : List Input}
    (h : s.turn = .goOn p ps rest) : s.foreground = p :: ps := by
  cases hf : s.foreground with
  | nil =>
    simp only [State.turn, operationTurn, busTurn, foregroundTurn, resumeTurn, hf] at h
    split at h <;> (try split at h) <;> (try split at h) <;> cases h
  | cons q qs =>
    simp only [State.turn, operationTurn, busTurn, foregroundTurn, resumeTurn, hf] at h
    split at h <;> (try split at h) <;> (try split at h) <;> first | cases h; rfl | cases h

/-- Only an input of the environment sets GIE. -/
theorem turn_gie_inputs {b : Bool} {rest : List Input} (h : s.turn = .gie b rest) :
    s.inputs = .gie b :: rest := by
  simp only [State.turn, operationTurn, busTurn, foregroundTurn, resumeTurn] at h
  split at h <;> (try split at h) <;> (try split at h) <;> (try split at h) <;>
    first | cases h; assumption | cases h

/-- Whose turn it can be while the environment alone acts beside the foreground: nobody's, the foreground's with nothing
or something in progress, a change of GIE, or an event. -/
theorem turn_of_environment (hx : ∀ x ∈ s.inputs, x.ofEnvironment = true) :
    (s.turn = .idle ∧ s.foreground = []) ∨
    (∃ rest, s.turn = .skip rest ∧ s.inputs = .resume :: rest ∧ s.foreground = []) ∨
    (∃ b rest, s.turn = .gie b rest ∧ s.inputs = .gie b :: rest) ∨
    (∃ p ps rest, s.turn = .goOn p ps rest ∧ s.foreground = p :: ps ∧
      (s.inputs = .resume :: rest ∨ (s.inputs = [] ∧ rest = []))) ∨
    (∃ i w rest, s.turn = .run i rest ∧ s.inputs = .op w :: rest ∧ decode w = .ok i ∧
      i.agent ≠ .foreground) := by
  cases hi : s.inputs with
  | nil =>
    cases hf : s.foreground with
    | nil => exact .inl (by simp [State.turn, hi, hf])
    | cons p ps => exact .inr (.inr (.inr (.inl ⟨p, ps, [], turn_of_nil hi hf, rfl, .inr ⟨rfl, rfl⟩⟩)))
  | cons x rest =>
    have h := hx x (by simp [hi])
    cases x with
    | op w =>
      simp only [Input.ofEnvironment] at h
      split at h
      · rename_i i hd
        have ha : i.agent ≠ .foreground := by simpa using h
        exact .inr (.inr (.inr (.inr ⟨i, w, rest, turn_of_event hi hd ha, rfl, hd, ha⟩)))
      · cases h
    | resume =>
      cases hf : s.foreground with
      | nil => exact .inr (.inl ⟨rest, by simp [State.turn, hi, resumeTurn, hf], rfl, rfl⟩)
      | cons p ps =>
        exact .inr (.inr (.inr (.inl ⟨p, ps, rest, turn_of_resume hi hf, rfl, .inl rfl⟩)))
    | gie b => exact .inr (.inr (.inl ⟨b, rest, by simp [State.turn, hi], rfl⟩))
    | bus t => cases h
    | coincide a b => cases h
    | call c => cases h

/-- What is left of a polling delay still has a flag to observe. -/
theorem mem_pollRest {n : Nat} {p : Pending} (h : p ∈ pollRest n) : p = .poll n ∧ 0 < n := by
  unfold pollRest at h
  split at h
  · cases h
  · exact ⟨by simpa using h, by omega⟩

/-- What is left of an interrupt-driven delay still has a change to observe. -/
theorem mem_watchRest {needed n : Nat} {last : Word} {p : Pending} (h : p ∈ watchRest needed n last) :
    p = .watch needed n last ∧ n ≠ needed := by
  unfold watchRest at h
  split at h
  · cases h
  · exact ⟨by simpa using h, by assumption⟩

end Sys2Proof.Machine
end

