-- ==== Sys2Proof/Tests/Slice0.lean ====
section
/-! SUPPORT. Tests of the model's own, their expected results from `95_test_vectors.md` and the examples of the rules, and
for each obligation with hypotheses a witness that meets them. -/

namespace Sys2Proof.Tests

open Sys2Proof Sys2Proof.Machine

/-- The parameters of the vectors, with CNT_BITS = 24 and the frequency of program P2. -/
def cfg24 : Params where
  timerBase := 0x40000000
  cntBits := 24
  calibValue := 0xC0FFEE00
  ticksAddr := some 0x20000000
  handlerWired := true
  fCoreHz := 4000
  variant := .polling

/-- The same with CNT_BITS = 32, the handler not registered, and the interrupt variant. -/
def cfg32 : Params where
  timerBase := 0x40000000
  cntBits := 32
  calibValue := 0xC0FFEE00
  ticksAddr := some 0x20000000
  handlerWired := false
  fCoreHz := 4000
  variant := .interrupt

/-- A state in the notation of the vectors; GIE is 1 (their convention) and the tick period 1. -/
def st (cfg : Params) (en ti cs cf : Bool) (rel cur ticks : Word) (irq : Bool) : State where
  cfg := cfg
  enable := en
  tickint := ti
  clksource := cs
  countflag := cf
  reload := rel
  current := cur
  ticks := ticks
  irqPending := irq
  gie := true
  rdata := 0
  hasWrapped := false
  period := 1
  owned := false
  foreground := []
  inputs := []
  draws := 2

/-- `st` with CNT_BITS = 24. -/
def s24 : Bool → Bool → Bool → Bool → Word → Word → Word → Bool → State := st cfg24

/-- A field of the state an operation answers with. -/
def field {α : Type} (f : State → α) (i : Instr) (s : State) : Option α :=
  match exec i s with
  | .next t => some (f t)
  | _ => none

/-- A field of the state `k` steps answer with. -/
def fieldOf {α : Type} (f : State → α) (k : Nat) (s : State) : Option α :=
  match runSteps k s with
  | .next t => some (f t)
  | _ => none

/-- The block's four bits: enable, tickint, clksource, countflag. -/
def bits4 (s : State) : Bool × Bool × Bool × Bool := (s.enable, s.tickint, s.clksource, s.countflag)

/-- A state for the witnesses: running on the core clock with TICKINT, about to wrap. -/
def atWrap : State := s24 true true true false 9 0 7 false

/-! ### Well-formedness: each check refuses an ill-formed term -/

theorem test_wellFormed_word : OpWord.wellFormed ⟨0x10FFFFFFFF#40, .arg⟩ = true := by decide
theorem test_wellFormed_selector : OpWord.wellFormed ⟨0x4400000000#40, .arg⟩ = false := by decide
theorem test_wellFormed_data : OpWord.wellFormed ⟨0x0000000001#40, .arg⟩ = false := by decide
theorem test_wellFormed_fn : OpWord.wellFormed ⟨0x1000000001#40, .not .arg⟩ = false := by decide
theorem test_wellFormed_bus : BusReq.wellFormed cfg24 (.write 0x4000000C 4 5) = true := by decide
theorem test_wellFormed_bus_width : BusReq.wellFormed cfg24 (.read 0x40000000 1) = false := by decide
theorem test_wellFormed_bus_misaligned : BusReq.wellFormed cfg24 (.read 0x40000006 4) = false := by decide
theorem test_wellFormed_bus_outside : BusReq.wellFormed cfg24 (.read 0x40000010 4) = false := by decide
theorem test_wellFormed_bus_ticks : BusReq.wellFormed cfg24 (.write 0x20000000 4 0) = false := by decide

/-! ### Decoding: words written out from R47 (`kind` ++ `we` ++ `off` ++ `wdata`) -/

theorem test_decode_rdCs :
    decode ⟨0b000#3 ++ 0b0#1 ++ 0b0000#4 ++ 0x00000000#32, .arg⟩ = .ok .rdCs := by decide
theorem test_decode_rdReload :
    decode ⟨0b000#3 ++ 0b0#1 ++ 0b0100#4 ++ 0x00000000#32, .arg⟩ = .ok .rdReload := by decide
theorem test_decode_rdCurrent :
    decode ⟨0b000#3 ++ 0b0#1 ++ 0b1000#4 ++ 0x00000000#32, .arg⟩ = .ok .rdCurrent := by decide
theorem test_decode_rdCalib :
    decode ⟨0b000#3 ++ 0b0#1 ++ 0b1100#4 ++ 0x00000000#32, .arg⟩ = .ok .rdCalib := by decide
theorem test_decode_wrCs :
    decode ⟨0b000#3 ++ 0b1#1 ++ 0b0000#4 ++ 0x00000006#32, .arg⟩ = .ok (.wrCs 0x00000006) := by decide
theorem test_decode_wrReload :
    decode ⟨0b000#3 ++ 0b1#1 ++ 0b0100#4 ++ 0x001312CF#32, .arg⟩ = .ok (.wrReload 0x001312CF) := by
  decide
theorem test_decode_wrCurrent :
    decode ⟨0b000#3 ++ 0b1#1 ++ 0b1000#4 ++ 0x001312CF#32, .arg⟩ = .ok (.wrCurrent 0x001312CF) := by
  decide
theorem test_decode_wrCalib :
    decode ⟨0b000#3 ++ 0b1#1 ++ 0b1100#4 ++ 0x12345678#32, .arg⟩ = .ok (.wrCalib 0x12345678) := by
  decide
theorem test_decode_modCs :
    decode ⟨0b001#3 ++ 0b1#1 ++ 0b0000#4 ++ 0x00000000#32, .or .arg (.lit 1)⟩ =
      .ok (.modCs (.or .arg (.lit 1))) := by decide
theorem test_decode_modReload :
    decode ⟨0b001#3 ++ 0b1#1 ++ 0b0100#4 ++ 0x00000000#32, .add .arg (.lit 1)⟩ =
      .ok (.modReload (.add .arg (.lit 1))) := by decide
theorem test_decode_modCurrent :
    decode ⟨0b001#3 ++ 0b1#1 ++ 0b1000#4 ++ 0x00000000#32, .sub .arg (.lit 1)⟩ =
      .ok (.modCurrent (.sub .arg (.lit 1))) := by decide
theorem test_decode_modCalib :
    decode ⟨0b001#3 ++ 0b1#1 ++ 0b1100#4 ++ 0x00000000#32, .not .arg⟩ = .ok (.modCalib (.not .arg)) := by
  decide
theorem test_decode_rdTicks :
    decode ⟨0b010#3 ++ 0b0#1 ++ 0b0000#4 ++ 0x00000000#32, .arg⟩ = .ok .rdTicks := by decide
theorem test_decode_tickCore :
    decode ⟨0b100#3 ++ 0b0#1 ++ 0b0000#4 ++ 0x00000000#32, .arg⟩ = .ok .tickCore := by decide
theorem test_decode_tickRef :
    decode ⟨0b100#3 ++ 0b0#1 ++ 0b0001#4 ++ 0x00000000#32, .arg⟩ = .ok .tickRef := by decide
theorem test_decode_irqTake :
    decode ⟨0b100#3 ++ 0b0#1 ++ 0b0010#4 ++ 0x00000000#32, .arg⟩ = .ok .irqTake := by decide
theorem test_decode_irqSpur :
    decode ⟨0b100#3 ++ 0b0#1 ++ 0b0011#4 ++ 0x00000000#32, .arg⟩ = .ok .irqSpur := by decide
theorem test_decode_reset :
    decode ⟨0b100#3 ++ 0b0#1 ++ 0b0100#4 ++ 0x00000000#32, .arg⟩ = .ok .reset := by decide

/-- Vector B25: selectors of no row; vector B24: misaligned offsets. -/
theorem test_decode_invalid :
    decode ⟨0x2000000000#40, .arg⟩ = .error .unknownSelector ∧
    decode ⟨0x4400000000#40, .arg⟩ = .error .unknownSelector ∧
    decode ⟨0x8500000000#40, .arg⟩ = .error .unknownSelector ∧
    decode ⟨0xFF00000000#40, .arg⟩ = .error .unknownSelector ∧
    decode ⟨0x1200000000#40, .arg⟩ = .error .misaligned := by decide

/-- Vector B24: a byte read at +1, a halfword write at +2, a word read at +6. -/
theorem test_bus_refused :
    decodeBus cfg24 (.read 0x40000001 1) = .error .width ∧
    decodeBus cfg24 (.write 0x40000002 2 0) = .error .width ∧
    decodeBus cfg24 (.read 0x40000006 4) = .error .misaligned := by decide

/-- Words in the opcode table's numbering: the selector is the low byte. -/
theorem test_table_word :
    decodeTableWord 8 0x14 = some (.wrReload 0) ∧ decodeTableWord 40 0x1312CF14 = some (.wrReload 0x1312CF) ∧
    decodeTableWord 8 0x84 = some .reset ∧ decodeTableWord 8 0x85 = none := by decide

/-- A placed word is what the next step runs, from reset: `WR.CS 0x7` sets the three bits. -/
theorem test_fetch_wrCs :
    fieldOf bits4 1 (State.reset.withFetchWord 40 0x710) = some (true, true, true, false) := by decide

/-- A placed `RD.CS` runs from reset and returns 0 (Z1). -/
theorem test_fetch_rdCs : fieldOf State.rdata 1 (State.reset.withFetchWord 8 0x00) = some 0 := by decide

/-! ### Bus operations (vectors B1 to B23 and the examples of R60 to R72) -/

theorem test_rdCs_value : field State.rdata .rdCs (s24 true false true true 0 5 0 false) = some 0x00010005 := by
  decide
theorem test_rdCs_clears :
    field bits4 .rdCs (s24 true false true true 0 5 0 false) = some (true, false, true, false) := by decide
theorem test_wrCs_all_ones :
    field bits4 (.wrCs 0xFFFFFFFF) (s24 false false false false 0 5 0 false) =
      some (true, true, true, false) := by decide
theorem test_wrCs_keeps_flag :
    field bits4 (.wrCs 0) (s24 true true true true 0 5 0 true) = some (false, false, false, true) := by decide
theorem test_rdReload :
    field State.rdata .rdReload (s24 false false false true 1249999 5 0 false) = some 0x001312CF := by decide
theorem test_wrReload_truncates :
    field State.reload (.wrReload 0x01000000) (s24 false false false false 9 5 0 false) = some 0 := by decide
theorem test_wrReload_32 :
    field State.reload (.wrReload 0xFFFFFFFF) (st cfg32 false false false false 9 5 0 false) =
      some 0xFFFFFFFF := by decide
theorem test_rdCurrent :
    field State.rdata .rdCurrent (s24 true false true true 9 3 0 false) = some 0x00000003 := by decide
theorem test_wrCurrent_stores :
    field State.current (.wrCurrent 0x001312CF) (s24 true false true true 9 3 0 false) =
      some 0x001312CF := by decide
theorem test_wrCurrent_keeps_flag :
    field State.countflag (.wrCurrent 0) (s24 true false true true 9 3 0 false) = some true := by decide
theorem test_rdCalib : field State.rdata .rdCalib (s24 true false true true 9 3 0 false) = some 0xC0FFEE00 := by
  decide
theorem test_wrCalib_dropped :
    field (fun t => t.view .calib) (.wrCalib 0x12345678) (s24 true false true true 9 3 0 false) =
      some 0xC0FFEE00 := by decide

/-- Vector B18: the read half returns `0x0001_0006` and the write half leaves the flag consumed. -/
theorem test_modCs_read :
    field State.rdata (.modCs (.or .arg (.lit 1))) (s24 false true true true 9 3 0 false) =
      some 0x00010006 := by decide
theorem test_modCs_whole :
    fieldOf bits4 2 { s24 false true true true 9 3 0 false with
      inputs := [.op (encode (.modCs (.or .arg (.lit 1))))] } = some (true, true, true, false) := by decide

/-- Vector B20. -/
theorem test_modReload :
    fieldOf State.reload 2 { s24 false false true false 9 3 0 false with
      inputs := [.op (encode (.modReload (.add .arg (.lit 1))))] } = some 10 := by decide

/-- Vector B21: a pulse between the halves is undone. -/
theorem test_modCurrent_gap :
    fieldOf State.current 3 { s24 true false true false 9 5 0 false with
      inputs := [.op (encode (.modCurrent .arg)), .op (encode .tickCore)] } = some 5 := by decide

/-- Vector B22. -/
theorem test_modCalib :
    fieldOf (fun t => (t.rdata, t.view .calib)) 2 { s24 true false true false 9 5 0 false with
      inputs := [.op (encode (.modCalib (.not .arg)))] } = some (0xC0FFEE00, 0xC0FFEE00) := by decide

/-- Vector B23. -/
theorem test_rdTicks : field State.rdata .rdTicks (s24 true false true false 9 5 0x2A false) = some 0x2A := by
  decide

/-! ### Count events and the extractor (vectors K1 to K14) -/

/-- K1. -/
theorem test_tickCore_decrement :
    field State.current .tickCore (s24 true false true false 9 4 0 false) = some 3 := by decide

/-- K3. -/
theorem test_tickCore_wrap :
    field (fun t => (t.current, t.countflag, t.irqPending)) .tickCore (s24 true true true false 9 0 0 false) =
      some (9, true, true) := by decide

/-- K7. -/
theorem test_tickRef_selected :
    field State.current .tickRef (s24 true false false false 9 4 0 false) = some 3 := by decide

/-- K8. -/
theorem test_tickRef_unselected :
    field State.current .tickRef (s24 true false true false 9 4 0 false) = some 4 := by decide

/-- K5 and K2: a stopped counter does not wrap; no request without TICKINT. -/
theorem test_wrap_conditions :
    field (fun t => (t.current, t.countflag)) .tickCore (s24 false false true false 9 0 0 false) =
      some (0, false) ∧
    field State.irqPending .tickCore (s24 true false true false 9 0 0 false) = some false := by decide

/-- K13. -/
theorem test_wrapDet :
    wrapDet 0x00010005 = true ∧ wrapDet 0x00000007 = false ∧ wrapDet 0xFFFEFFFF = false := by decide

/-- K14: whichever is given first, the read goes first: it returns the old flag and the wrap's flag stands. -/
theorem test_tie :
    fieldOf (fun t => (wrapDet t.rdata, t.countflag)) 2 { s24 true false true false 9 0 0 false with
      inputs := [.coincide (encode .tickCore) (encode .rdCs)] } = some (false, true) := by decide

/-- R55: `has_wrapped` is of a control_status read alone; the reload value 1_249_999 has bit 16 set. -/
theorem test_hasWrapped_other_read :
    field hasWrappedOut .rdReload (s24 true false true true 0x1312CF 5 0 false) = some false ∧
    field hasWrappedOut .rdCs (s24 true false true true 0x1312CF 5 0 false) = some true := by decide

/-! ### Tick update and interrupt delivery (vectors T1 to T8) -/

theorem test_tickUpd :
    tickUpd 0 = 1 ∧ tickUpd 0x7FFFFFFF = 0x80000000 ∧ tickUpd 0xFFFFFFFE = 0xFFFFFFFF ∧
      tickUpd 0xFFFFFFFF = 0 := by decide

/-- T7. -/
theorem test_elapsed :
    elapsed 0xFFFFFFFE 3 = 5 ∧ elapsed 5 5 = 0 ∧ elapsed 10 7 = 0xFFFFFFFD := by decide

/-- T8. -/
theorem test_irqTake_wraps :
    field (fun t => (t.ticks, t.irqPending)) .irqTake (s24 true true true true 9 4 0xFFFFFFFF true) =
      some (0, false) := by decide

/-- T3: the default handler absorbs it. -/
theorem test_irqTake_not_wired :
    field (fun t => (t.ticks, t.irqPending)) .irqTake (st cfg32 true true true true 9 4 41 true) =
      some (41, false) := by decide

/-- T4 and T5: no step exists. -/
theorem test_irqTake_no_step :
    field State.ticks .irqTake { s24 true true true true 9 4 41 true with gie := false } = none ∧
    field State.ticks .irqTake (s24 true true true true 9 4 41 false) = none := by decide

/-- T6. -/
theorem test_irqSpur :
    field (fun t => (t.ticks, t.irqPending)) .irqSpur (s24 true true true true 9 4 41 true) =
      some (41, true) := by decide

/-- Z1. -/
theorem test_reset_fields :
    field (fun t => (bits4 t, t.ticks, t.irqPending)) .reset (s24 true true true true 9 4 77 true) =
      some ((false, false, false, false), 0, false) := by decide

/-! ### Driver sequences (vectors S1 to S9 and E1) -/

/-- E1 and S8. -/
theorem test_reloadVal :
    reloadVal cfg24 1 = some 3 ∧ reloadVal cfg24 0 = none ∧ reloadVal cfg24 4194304 = some 16777215 ∧
      reloadVal cfg24 4194305 = none := by decide

/-- E4: `P = 10`, `ms = 25` asks for 2 observations; S9: `ms = 9` for none. -/
theorem test_delay_truncates :
    fieldOf State.foreground 1 { s24 true false true false 3 3 0 false with
      period := 10, inputs := [.call (.delayMs 25)] } = some [.poll 2] ∧
    fieldOf State.foreground 1 { s24 true false true false 3 3 0 false with
      period := 10, inputs := [.call (.delayMs 9)] } = some [] := by decide

/-- S6: `disable_interrupt()` leaves the request pending. -/
theorem test_disableInterrupt :
    fieldOf (fun t => (bits4 t, t.irqPending)) 3 { s24 true true true true 9 4 0 true with
      inputs := [.call .disableInterrupt] } = some ((true, false, true, false), true) := by decide

/-- R95: the accesses `init(1)` at 4 kHz asks for in the interrupt variant. -/
theorem test_init_accesses :
    fieldOf State.foreground 1 { st cfg32 false true false true 9 4 0 false with
      inputs := [.call (.init 1)] } =
      some [.write .cs 0x00000006, .write .reload 3, .write .current 3,
        .modify .cs (.or (.or .arg (.lit 0x1)) (.lit 0x2))] := by decide

/-! ### Witnesses: for each obligation with hypotheses, a concrete state and operands that meet them -/

/-- A state whose next input is the operation of `i`. -/
def withOp (i : Instr) (s : State) : State := { s with inputs := [.op (encode i)] }

/-- A state whose foreground has `p` in progress and the next turn. -/
def withPending (p : Pending) (s : State) : State := { s with foreground := [p], inputs := [.resume] }

theorem atWrap_inv : atWrap.Inv := by unfold State.Inv; decide

theorem witness_StepKeepsInvariant : ∃ s t : State, s.Inv ∧ step s = .next t :=
  ⟨withOp .tickCore atWrap, _, by unfold State.Inv; decide, rfl⟩

theorem witness_StepKeepsInvariant_foreground :
    ∃ s t : State, s.Inv ∧ s.foreground = [.poll 1] ∧ step s = .next t :=
  ⟨withPending (.poll 1) (s24 true false true true 0xFFFFFF 0xFFFFFF 0 false), _,
    by unfold State.Inv; decide, rfl, rfl⟩

theorem witness_ParametersAreConstant : ∃ s t : State, step s = .next t :=
  ⟨withOp .reset atWrap, _, rfl⟩

theorem witness_CountFlagCauses_wrap : ∃ s t : State, step s = .next t ∧ wrapsNext s = true :=
  ⟨withOp .tickCore atWrap, _, rfl, by decide⟩

theorem witness_CountFlagCauses_read :
    (∃ t, step (withOp .rdCs atWrap) = .next t) ∧ readsCsNext (withOp .rdCs atWrap) = true ∧
    (∃ t, step (withOp (.modCs .arg) atWrap) = .next t) ∧ readsCsNext (withOp (.modCs .arg) atWrap) = true ∧
    (∃ t, step (withPending (.poll 1) atWrap) = .next t) ∧ readsCsNext (withPending (.poll 1) atWrap) = true :=
  ⟨⟨_, rfl⟩, by decide, ⟨_, rfl⟩, by decide, ⟨_, rfl⟩, by decide⟩

theorem witness_CountFlagCauses_reset : ∃ s t : State, step s = .next t ∧ resetsNext s = true :=
  ⟨withOp .reset atWrap, _, rfl, by decide⟩

theorem witness_CountFlagCauses_none :
    ∃ s t : State, step s = .next t ∧ wrapsNext s = false ∧ readsCsNext s = false ∧ resetsNext s = false :=
  ⟨withOp (.wrCs 0x10000) atWrap, _, rfl, by decide, by decide, by decide⟩

theorem witness_RequestCauses_wrap :
    ∃ s t : State, step s = .next t ∧ wrapsNext s = true ∧ s.tickint = true :=
  ⟨withOp .tickCore atWrap, _, rfl, by decide, rfl⟩

theorem witness_RequestCauses_handler : ∃ s t : State, step s = .next t ∧ runsHandler s = true :=
  ⟨withOp .irqTake (s24 true true true true 9 4 41 true), _, rfl, by decide⟩

theorem witness_RequestCauses_reset : ∃ s t : State, step s = .next t ∧ resetsNext s = true :=
  ⟨withOp .reset atWrap, _, rfl, by decide⟩

theorem witness_RequestCauses_none :
    ∃ s t : State, step s = .next t ∧ wrapsNext s = true ∧ s.tickint = false ∧ runsHandler s = false ∧
      resetsNext s = false :=
  ⟨withOp .tickCore { atWrap with tickint := false }, _, rfl, by decide, rfl, by decide, by decide⟩

theorem witness_RequestCauses_foreground :
    ∃ (i : Instr) (s t : State), i.agent = .foreground ∧ exec i s = .next t :=
  ⟨.rdCs, atWrap, _, rfl, rfl⟩

theorem witness_TicksSingleWriter :
    ∃ s t : State, step s = .next t ∧ runsHandler s = false ∧ resetsNext s = false :=
  ⟨withOp .tickCore atWrap, _, rfl, by decide, by decide⟩

/-- CNT_BITS = 24 and bit 24, the first above it. -/
theorem witness_ReservedBitsReadZero : ∃ (s : State) (k : Nat), s.Inv ∧ s.cfg.cntBits ≤ k ∧ k < 32 :=
  ⟨atWrap, 24, atWrap_inv, by decide, by decide⟩

theorem witness_ByteViewIsLittleEndian : ∃ k : Nat, k < 4 ∧ byteAt atWrap (0x40000000 + 4 * 3 + k) = some 0xC0 :=
  ⟨3, by decide, by decide⟩

theorem witness_DecodeRefusesIllFormedWords :
    selectors.contains (OpWord.selector ⟨0x0100000000#40, .arg⟩) = false ∧
    selectors.contains (OpWord.selector ⟨0x2000000000#40, .arg⟩) = false := by decide

/-- The first and the last byte of the block: a wrong size, and the right size misaligned. -/
theorem witness_BusRefusesOtherAccesses_inside :
    ∃ a b : BusReq, cfg24.timerBase.toNat ≤ a.addr.toNat ∧ a.addr.toNat ≤ cfg24.timerBase.toNat + 15 ∧
      a.size ≠ 4 ∧ cfg24.timerBase.toNat ≤ b.addr.toNat ∧ b.addr.toNat ≤ cfg24.timerBase.toNat + 15 ∧
      b.size = 4 ∧ (b.addr.toNat - cfg24.timerBase.toNat) % 4 ≠ 0 :=
  ⟨.read 0x40000000 2, .write 0x4000000F 4 0, by decide, by decide, by decide, by decide, by decide,
    by decide, by decide⟩

theorem witness_BusRefusesOtherAccesses_ticks :
    ∃ a b c : BusReq, cfg24.ticksAddr = some a.addr ∧ a.size ≠ 4 ∧ cfg24.ticksAddr = some b.addr ∧
      b.size = 4 ∧ b.isWrite = true ∧ cfg24.ticksAddr = some c.addr ∧ c.size = 4 ∧ c.isWrite = false :=
  ⟨.read 0x20000000 1, .write 0x20000000 4 0, .read 0x20000000 4, by decide, by decide, by decide,
    by decide, by decide, by decide, by decide, by decide⟩

/-- The bytes just below and just above the block. -/
theorem witness_BusRefusesOtherAccesses_outside :
    ∃ a b : BusReq, a.addr.toNat < cfg24.timerBase.toNat ∧ cfg24.ticksAddr ≠ some a.addr ∧
      cfg24.timerBase.toNat + 15 < b.addr.toNat ∧ cfg24.ticksAddr ≠ some b.addr :=
  ⟨.read 0x3FFFFFFF 4, .read 0x40000010 4, by decide, by decide, by decide, by decide⟩

theorem witness_StepRunsDecodedOperation_foreground :
    ∃ (s : State) (w : OpWord) (i : Instr) (rest : List Input),
      s.inputs = .op w :: rest ∧ decode w = .ok i ∧ i.agent = .foreground ∧ s.foreground = [] :=
  ⟨withOp (.wrCs 7) atWrap, encode (.wrCs 7), .wrCs 7, [], rfl, by decide, rfl, rfl⟩

theorem witness_StepRunsDecodedOperation_event :
    ∃ (s : State) (w : OpWord) (i : Instr) (rest : List Input),
      s.inputs = .op w :: rest ∧ decode w = .ok i ∧ i.agent ≠ .foreground ∧ s.foreground ≠ [] :=
  ⟨{ atWrap with foreground := [.poll 1], inputs := [.op (encode .tickRef)] }, encode .tickRef, .tickRef,
    [], rfl, by decide, by decide, by decide⟩

theorem witness_StepRunsBusTransaction :
    ∃ (s : State) (t : BusReq) (rest : List Input), s.inputs = .bus t :: rest ∧ s.foreground = [] ∧
      decodeBus s.cfg t = .ok .rdCs :=
  ⟨{ atWrap with inputs := [.bus (.read 0x40000000 4)] }, _, _, rfl, rfl, by decide⟩

theorem witness_ForegroundKeepsProgramOrder :
    ∃ (s : State) (p : Pending) (ps : List Pending) (x : Input) (rest : List Input),
      s.foreground = p :: ps ∧ s.inputs = x :: rest ∧
        ∃ w i, x = .op w ∧ decode w = .ok i ∧ i.agent = .foreground :=
  ⟨{ atWrap with foreground := [.write .cs 5], inputs := [.op (encode .rdCs)] }, _, _, _, _, rfl, rfl,
    encode .rdCs, .rdCs, rfl, by decide, rfl⟩

theorem witness_ForegroundKeepsProgramOrder_others :
    ∃ s t : State, s.foreground = [.write .cs 5] ∧ s.inputs = [.bus (.read 0x40000000 4)] ∧
      t.foreground = [.write .cs 5] ∧ t.inputs = [.call .hasWrapped] :=
  ⟨{ atWrap with foreground := [.write .cs 5], inputs := [.bus (.read 0x40000000 4)] },
    { atWrap with foreground := [.write .cs 5], inputs := [.call .hasWrapped] }, rfl, rfl, rfl, rfl⟩

theorem witness_SimultaneousReadComesBeforeWrap :
    ∃ s t : State, isWrapEvent .tickCore s = true ∧ Instr.rdCs.readsCs = true ∧ s.foreground = [] ∧
      s.inputs = [.coincide (encode .tickCore) (encode .rdCs)] ∧ isWrapEvent .tickRef t = true ∧
      t.foreground = [] ∧ t.inputs = [.coincide (encode .rdCs) (encode .tickRef)] :=
  ⟨{ atWrap with inputs := [.coincide (encode .tickCore) (encode .rdCs)] },
    { atWrap with clksource := false, inputs := [.coincide (encode .rdCs) (encode .tickRef)] },
    by decide, rfl, rfl, rfl, by decide, rfl, rfl⟩

theorem witness_SimultaneousReadComesBeforeWrap_modify :
    ∃ (s : State) (f : Fn), isWrapEvent .tickCore s = true ∧ (Instr.modCs f).readsCs = true ∧
      s.foreground = [] ∧ s.inputs = [.coincide (encode .tickCore) (encode (.modCs f))] :=
  ⟨{ atWrap with inputs := [.coincide (encode .tickCore) (encode (.modCs .arg))] }, .arg, by decide, rfl,
    rfl, rfl⟩

theorem witness_GieChangesOnlyFromOutside :
    ∃ s t : State, step s = .next t ∧ t.gie ≠ s.gie ∧ s.inputs = [.gie false] :=
  ⟨{ atWrap with inputs := [.gie false] }, _, rfl, by decide, rfl⟩

theorem witness_ReadCounts : ∃ s : State, s.Inv := ⟨atWrap, atWrap_inv⟩

theorem witness_ReadCalibration : ∃ (l : List Instr) (s t : State), execAll l s = .next t ∧ l ≠ [] :=
  ⟨[.wrCalib 5, .reset], atWrap, _, rfl, by decide⟩

theorem witness_ReadTickCounter : ∃ (s : State) (a : Word), s.cfg.ticksAddr = some a :=
  ⟨atWrap, 0x20000000, rfl⟩

/-- Program P5: a wrap and a handler run between the halves of a `MOD.CS`. -/
theorem witness_ModifyControlStatus :
    ∃ (s t u : State), exec (.modCs (.and .arg (.lit 0xFFFFFFFD))) s = .next t ∧
      (∀ i ∈ [Instr.tickCore, .irqTake], i.agent ≠ .foreground) ∧ execAll [.tickCore, .irqTake] t = .next u ∧
      Instr.reset ∉ [Instr.tickCore, .irqTake] :=
  ⟨s24 true true true true 2 0 7 false, _, _, rfl, by decide, rfl, by decide⟩

theorem witness_ModifyReload :
    ∃ (s t u : State), exec (.modReload .arg) s = .next t ∧
      (∀ i ∈ [Instr.tickCore], i.agent ≠ .foreground ∧ i ≠ .reset) ∧ execAll [.tickCore] t = .next u :=
  ⟨atWrap, _, _, rfl, by decide, rfl⟩

theorem witness_ModifyCurrent :
    ∃ (s t u : State), exec (.modCurrent .arg) s = .next t ∧ (∀ i ∈ [Instr.tickCore], i.agent ≠ .foreground) ∧
      execAll [.tickCore] t = .next u ∧ Instr.reset ∉ [Instr.tickCore] ∧ 0 < wrapCount [.tickCore] t ∧
      s.tickint = true ∧ Instr.irqTake ∉ [Instr.tickCore] :=
  ⟨atWrap, _, _, rfl, by decide, rfl, by decide, by decide, rfl, by decide⟩

theorem witness_ModifyCurrent_stopped :
    ∃ (s t u : State), exec (.modCurrent .arg) s = .next t ∧ (∀ i ∈ [Instr.tickCore], i.agent ≠ .foreground) ∧
      execAll [.tickCore] t = .next u ∧ Instr.reset ∉ [Instr.tickCore] ∧ s.enable = false :=
  ⟨{ atWrap with enable := false }, _, _, rfl, by decide, rfl, by decide, rfl⟩

theorem witness_CountStepAndWrapEvent :
    ∃ (i : Instr) (s t : State), exec i s = .next t ∧ s.countflag = false ∧ t.countflag = true ∧
      s.irqPending = false ∧ t.irqPending = true :=
  ⟨.tickCore, atWrap, _, rfl, rfl, rfl, rfl, rfl⟩

/-- K11, with `k` and `j` at both ends of their ranges. -/
theorem witness_PeriodLaw :
    ∃ (s : State) (i : Instr), isSelectedPulse i s = true ∧ s.enable = true ∧ 0 < s.current.toNat ∧
      (3 : Nat) ≤ s.current.toNat ∧ (3 : Nat) ≤ s.reload.toNat :=
  ⟨s24 true false true false 3 3 0 false, .tickCore, by decide, rfl, by decide, by decide, by decide⟩

theorem witness_CountStaysBounded :
    ∃ (l : List Instr) (s t : State), (∀ i ∈ l, i = .tickCore ∨ i = .tickRef) ∧ execAll l s = .next t ∧ l ≠ [] :=
  ⟨[.tickCore, .tickRef], atWrap, _, by decide, rfl, by decide⟩

theorem witness_EnableAloneGatesCounting :
    ∃ (l : List Instr) (s : State), (∀ i ∈ l, i = .tickCore ∨ i = .tickRef) ∧ s.enable = false ∧ l ≠ [] :=
  ⟨[.tickCore, .tickRef], { atWrap with enable := false }, by decide, rfl, by decide⟩

theorem witness_EnableAloneGatesCounting_others :
    (∃ s t : State, exec .irqTake s = .next t) ∧ ∃ s t : State, exec .rdCs s = .next t :=
  ⟨⟨s24 true true true true 9 4 41 true, _, rfl⟩, ⟨atWrap, _, rfl⟩⟩

theorem witness_ConsumptionLaw_none :
    ∃ (l : List Instr) (s t : State), execAll l s = .next t ∧ s.countflag = false ∧ wrapCount l s = 0 ∧ l ≠ [] :=
  ⟨[.wrCs 0xFFFFFFFF], atWrap, _, rfl, rfl, by decide, by decide⟩

theorem witness_ConsumptionLaw_wrapped :
    ∃ (l : List Instr) (s t : State), execAll l s = .next t ∧ 0 < wrapCount l s ∧
      ∀ i ∈ l, i.readsCs = false ∧ i ≠ .reset :=
  ⟨[.tickCore, .wrCs 0], atWrap, _, rfl, by decide, by decide⟩

theorem witness_TakeInterrupt :
    (∃ s : State, s.irqPending = true ∧ s.gie = true) ∧ (∃ s : State, s.irqPending = false) ∧
      ∃ s : State, s.irqPending = true ∧ s.gie = false :=
  ⟨⟨s24 true true true true 9 4 41 true, rfl, rfl⟩, ⟨atWrap, rfl⟩,
    ⟨{ s24 true true true true 9 4 41 true with gie := false }, rfl, rfl⟩⟩

theorem witness_SpuriousInterruptIsAbsorbed : (∃ s : State, s.gie = true) ∧ ∃ s : State, s.gie = false :=
  ⟨⟨atWrap, rfl⟩, ⟨{ atWrap with gie := false }, rfl⟩⟩

theorem witness_WraparoundLaw :
    ∃ (l : List Instr) (s t : State), s.cfg.handlerWired = true ∧ Instr.reset ∉ l ∧ execAll l s = .next t ∧
      l.count .irqTake = 1 ∧ s.ticks = 0xFFFFFFFF :=
  ⟨[.tickCore, .irqTake], { atWrap with ticks := 0xFFFFFFFF }, _, rfl, by decide, rfl, by decide, rfl⟩

theorem witness_ElapsedCountsHandlerRuns :
    ∃ (l : List Instr) (s t : State), s.cfg.handlerWired = true ∧ Instr.reset ∉ l ∧
      l.count .irqTake < 2 ^ 32 ∧ execAll l s = .next t ∧ l ≠ [] :=
  ⟨[.tickCore, .irqTake], { atWrap with ticks := 0xFFFFFFFF }, _, rfl, by decide, by decide, rfl, by decide⟩

theorem witness_TickNeedsEveryCondition_moves :
    ∃ (i : Instr) (s t : State), exec i s = .next t ∧ t.ticks ≠ s.ticks :=
  ⟨.irqTake, s24 true true true true 9 4 41 true, _, rfl, by decide⟩

/-- The three conditions in turn. -/
theorem witness_TickNeedsEveryCondition_still :
    (∃ (l : List Instr) (s t : State), s.irqPending = false ∧ s.tickint = false ∧
      (∀ i ∈ l, i ≠ .reset ∧ ∀ d, i ≠ .wrCs d) ∧ execAll l s = .next t ∧ l = [.tickCore]) ∧
    (∃ (l : List Instr) (s t : State), s.irqPending = false ∧ s.enable = false ∧
      (∀ i ∈ l, i ≠ .reset ∧ ∀ d, i ≠ .wrCs d) ∧ execAll l s = .next t ∧ l = [.tickCore]) ∧
    ∃ (l : List Instr) (s t : State), s.irqPending = false ∧ (∀ i ∈ l, isSelectedPulse i s = false) ∧
      (∀ i ∈ l, i ≠ .reset ∧ ∀ d, i ≠ .wrCs d) ∧ execAll l s = .next t ∧ l = [.tickRef] :=
  ⟨⟨[.tickCore], { atWrap with tickint := false }, _, rfl, rfl, by simp, rfl, rfl⟩,
    ⟨[.tickCore], { atWrap with enable := false }, _, rfl, rfl, by simp, rfl, rfl⟩,
    ⟨[.tickRef], atWrap, _, rfl, by decide, by simp, rfl, rfl⟩⟩

theorem witness_RequestsMerge :
    ∃ (l : List Instr) (s t u : State), s.cfg.handlerWired = true ∧ (∀ i ∈ l, i ≠ .irqTake ∧ i ≠ .reset) ∧
      execAll l s = .next t ∧ exec .irqTake t = .next u ∧ wrapCount l s = 2 :=
  ⟨[.tickCore, .tickCore], { atWrap with reload := 0 }, _, _, rfl, by decide, rfl, rfl, by decide⟩

theorem witness_NewBindsOnce :
    ∃ s t : State, s.foreground = [] ∧ s.inputs = [.call .new] ∧ s.owned = false ∧ t.foreground = [] ∧
      t.inputs = [.call .new] ∧ t.owned = true :=
  ⟨{ atWrap with inputs := [.call .new] }, { atWrap with inputs := [.call .new], owned := true },
    rfl, rfl, rfl, rfl, rfl, rfl⟩

/-- `init` at both ends of its range: the smallest interval, and the largest whose reload value fits 24 bits. -/
theorem witness_InitProgramsTheTimer :
    ∃ (s : State) (m n : Word), s.foreground = [] ∧ s.inputs = [.call (.init n)] ∧ 1 ≤ m.toNat ∧
      1 ≤ n.toNat ∧ 1000 ≤ s.cfg.fCoreHz ∧ m.toNat * (s.cfg.fCoreHz / 1000) ≤ 2 ^ s.cfg.cntBits ∧
      n.toNat * (s.cfg.fCoreHz / 1000) = 2 ^ s.cfg.cntBits :=
  ⟨{ atWrap with inputs := [.call (.init 4194304)] }, 1, 4194304, rfl, rfl, by decide, by decide, by decide,
    by decide, by decide⟩

theorem witness_ReloadComputation :
    ∃ (cfg : Params) (ms : Nat), 1 ≤ ms ∧ 1000 ≤ cfg.fCoreHz ∧ ms * (cfg.fCoreHz / 1000) ≤ 2 ^ cfg.cntBits :=
  ⟨cfg24, 1, by decide, by decide, by decide⟩

/-- Each of the three preconditions broken: interval 0, core clock 999 Hz, and one interval too long for 24 bits. -/
theorem witness_ReloadComputation_refused :
    (∃ (s : State) (ms : Word), s.foreground = [] ∧ s.inputs = [.call (.init ms)] ∧ ms.toNat = 0) ∧
    (∃ (s : State) (ms : Word), s.foreground = [] ∧ s.inputs = [.call (.init ms)] ∧ s.cfg.fCoreHz < 1000) ∧
    ∃ (s : State) (ms : Word), s.foreground = [] ∧ s.inputs = [.call (.init ms)] ∧
      2 ^ s.cfg.cntBits < ms.toNat * (s.cfg.fCoreHz / 1000) :=
  ⟨⟨{ atWrap with inputs := [.call (.init 0)] }, 0, rfl, rfl, rfl⟩,
    ⟨{ atWrap with cfg := { cfg24 with fCoreHz := 999, fCoreHz_ok := by decide }, inputs := [.call (.init 1)] },
      1, rfl, rfl, by decide⟩,
    ⟨{ atWrap with inputs := [.call (.init 4194305)] }, 4194305, rfl, rfl, by decide⟩⟩

theorem witness_OneAccessCalls : ∃ s : State, s.foreground = [] := ⟨atWrap, rfl⟩

theorem witness_BitOperations : ∃ s : State, s.foreground = [] ∧ s.countflag = true :=
  ⟨{ atWrap with countflag := true }, rfl, rfl⟩

theorem witness_DelayRoundsDown :
    (∃ (s : State) (ms : Word), s.foreground = [] ∧ s.inputs = [.call (.delayMs ms)] ∧ 0 < s.period ∧
      s.cfg.variant = .polling) ∧
    ∃ (s : State) (ms : Word), s.foreground = [] ∧ s.inputs = [.call (.delayMs ms)] ∧ 0 < s.period ∧
      s.cfg.variant = .interrupt ∧ ms.toNat / s.period = 0 :=
  ⟨⟨{ atWrap with inputs := [.call (.delayMs 25)] }, 25, rfl, rfl, by decide, rfl⟩,
    ⟨{ st cfg32 true true true false 3 3 0 false with period := 10, inputs := [.call (.delayMs 9)] }, 9, rfl,
      rfl, by decide, rfl, by decide⟩⟩

theorem witness_DelayRoundsDown_zeroPeriod :
    ∃ (s : State) (ms : Word), s.foreground = [] ∧ s.inputs = [.call (.delayMs ms)] ∧ s.period = 0 :=
  ⟨{ atWrap with period := 0, inputs := [.call (.delayMs 25)] }, 25, rfl, rfl, rfl⟩

/-- A wrap, then the delay's read of the flag; and the delay of no observations. -/
theorem witness_PollingDelayCountsObservations :
    (∃ (n : Nat) (s t : State), (∀ x ∈ s.inputs, x.ofEnvironment = true) ∧
      s.foreground = (if n = 0 then [] else [.poll n]) ∧ runSteps 2 s = .next t ∧ 0 < n) ∧
    ∃ s t : State, (∀ x ∈ s.inputs, x.ofEnvironment = true) ∧
      s.foreground = (if 0 = 0 then [] else [.poll 0]) ∧ runSteps 2 s = .next t :=
  ⟨⟨1, { atWrap with foreground := [.poll 1], inputs := [.op (encode .tickCore), .resume] }, _, by decide,
      by decide, rfl, by decide⟩,
    ⟨{ atWrap with inputs := [.op (encode .tickCore), .gie false] }, _, by decide, by decide, rfl⟩⟩

/-- A handler run, then the delay's read that observes it and returns. -/
theorem witness_InterruptDelayNeverReturnsEarly :
    ∃ (s t : State), (∀ x ∈ s.inputs, x.noReset = true) ∧
      s.foreground = (if 0 = 1 then [] else [.watch 1 0 s.ticks]) ∧ runSteps 2 s = .next t ∧
      t.foreground = [] ∧ s.cfg.handlerWired = true :=
  ⟨{ s24 true true true true 9 4 41 true with
      foreground := [.watch 1 0 41], inputs := [.op (encode .irqTake), .resume] }, _, by decide, by decide,
    rfl, by decide, rfl⟩

/-- The one pulse of the list is of the clock that is not selected. -/
theorem otherClock (i : Instr) (h : Input.op (encode i) ∈ [Input.op (encode .tickRef), .resume]) :
    isSelectedPulse i { atWrap with
      foreground := [.poll 1], inputs := [.op (encode .tickRef), .resume] } = false := by
  cases i with
  | tickCore => revert h; decide
  | _ => rfl

/-- A delay of no changes that is about to take its first sample, which is its last. -/
theorem witness_InterruptDelayNeverReturnsEarly_sample :
    ∃ (s t : State), (∀ x ∈ s.inputs, x.noReset = true) ∧ s.foreground = [.sample 0] ∧
      runSteps 1 s = .next t ∧ t.foreground = [] ∧ s.cfg.handlerWired = true :=
  ⟨withPending (.sample 0) atWrap, _, by decide, rfl, rfl, rfl, rfl⟩

theorem witness_PollingDelayHangsWhenStopped :
    ∃ (n : Nat) (s : State), (∀ x ∈ s.inputs, x.pulseOrResume = true) ∧ s.enable = false ∧
      s.countflag = false ∧ 0 < n ∧ s.foreground = [.poll n] :=
  ⟨1, { atWrap with enable := false, foreground := [.poll 1], inputs := [.op (encode .tickCore), .resume] },
    by decide, rfl, rfl, by decide, rfl⟩

/-- ENABLE = 1 and pulses of the other clock only. -/
theorem witness_PollingDelayHangsWhenStopped_noPulse :
    ∃ (n : Nat) (s : State), (∀ x ∈ s.inputs, x.pulseOrResume = true) ∧ s.enable = true ∧
      (∀ i, Input.op (encode i) ∈ s.inputs → isSelectedPulse i s = false) ∧
      s.countflag = false ∧ 0 < n ∧ s.foreground = [.poll n] :=
  ⟨1, { atWrap with foreground := [.poll 1], inputs := [.op (encode .tickRef), .resume] }, by decide, rfl,
    otherClock, rfl, by decide, rfl⟩

theorem witness_InterruptDelayHangsWithoutHandlerRuns :
    ∃ (needed n : Nat) (s : State), (∀ x ∈ s.inputs, x.pulseOrResume = true) ∧ n < needed ∧
      s.foreground = [.watch needed n s.ticks] :=
  ⟨1, 0, { atWrap with foreground := [.watch 1 0 7], inputs := [.op (encode .tickCore), .resume] },
    by decide, by decide, rfl⟩

/-- A state in which an interrupt-driven delay waits for one change, a request pending if `irq`. -/
def watching (cfg : Params) (irq : Bool) (inputs : List Input) : State :=
  { st cfg true true true false 9 4 7 irq with foreground := [.watch 1 0 7], inputs := inputs }

/-- The handler not registered, and a delivery that takes place. -/
theorem witness_InterruptDelayNeedsEveryCondition_handler :
    ∃ (s t : State), (∀ x ∈ s.inputs, x.noReset = true) ∧ s.foreground = [.watch 1 0 s.ticks] ∧
      s.cfg.handlerWired = false ∧ runSteps 2 s = .next t ∧ s.irqPending = true ∧ t.irqPending = false :=
  ⟨watching cfg32 true [.op (encode .irqTake), .resume], _, by decide, rfl, rfl, rfl, rfl, rfl⟩

theorem witness_InterruptDelayNeedsEveryCondition_gie :
    ∃ (s t : State), (∀ x ∈ s.inputs, x.noReset = true) ∧ s.foreground = [.watch 1 0 s.ticks] ∧
      s.gie = false ∧ Input.gie true ∉ s.inputs ∧ runSteps 2 s = .next t :=
  ⟨{ watching cfg24 true [.op (encode .tickCore), .resume] with gie := false }, _, by decide, rfl, rfl,
    by decide, rfl⟩

/-- ENABLE = 0, and TICKINT = 0, and no input that is a pulse. -/
theorem witness_InterruptDelayNeedsEveryCondition_noRequest :
    (∃ (s t : State), (∀ x ∈ s.inputs, x.noReset = true) ∧ s.foreground = [.watch 1 0 s.ticks] ∧
      s.irqPending = false ∧ s.enable = false ∧ runSteps 2 s = .next t) ∧
    (∃ (s t : State), (∀ x ∈ s.inputs, x.noReset = true) ∧ s.foreground = [.watch 1 0 s.ticks] ∧
      s.irqPending = false ∧ s.tickint = false ∧ runSteps 2 s = .next t) ∧
    ∃ (s t : State), (∀ x ∈ s.inputs, x.noReset = true) ∧ s.foreground = [.watch 1 0 s.ticks] ∧
      s.irqPending = false ∧ (∀ i, Input.op (encode i) ∈ s.inputs → isSelectedPulse i s = false) ∧
      runSteps 1 s = .next t :=
  ⟨⟨{ watching cfg24 false [.op (encode .tickCore), .resume] with enable := false }, _, by decide, rfl, rfl,
      rfl, rfl⟩,
    ⟨{ watching cfg24 false [.op (encode .tickCore), .resume] with tickint := false }, _, by decide, rfl, rfl,
      rfl, rfl⟩,
    ⟨watching cfg24 false [.resume], _, by decide, rfl, rfl, by simp [watching], rfl⟩⟩

/-- Each of the three delays' turns, with the foreground's turn given and with no input left. -/
theorem witness_DelayTurns :
    (∃ (s : State) (n : Nat), s.inputs = [.resume] ∧ n ≠ 0 ∧ s.foreground = [.poll n] ∧
      s.countflag = true) ∧
    (∃ (s : State) (needed : Nat), s.inputs = [] ∧ s.foreground = [.sample needed]) ∧
    ∃ (s : State) (needed n : Nat) (last : Word), s.inputs = [.resume] ∧ n ≠ needed ∧
      s.foreground = [.watch needed n last] ∧ s.ticks ≠ last ∧ n + 1 = needed :=
  ⟨⟨withPending (.poll 1) { atWrap with countflag := true }, 1, rfl, by decide, rfl, rfl⟩,
    ⟨{ atWrap with foreground := [.sample 0] }, 0, rfl, rfl⟩,
    ⟨withPending (.watch 1 0 6) atWrap, 1, 0, 6, rfl, by decide, rfl, by decide, rfl⟩⟩

/-- A read that finds the counter changed; and a delay that is over. -/
theorem witness_InterruptDelayCountsChanges :
    (∃ (needed n : Nat) (last : Word) (s t : State), (∀ x ∈ s.inputs, x.ofEnvironment = true) ∧ n < needed ∧
      s.foreground = (if n = needed then [] else [.watch needed n last]) ∧ runSteps 1 s = .next t ∧
      observesChange s = true) ∧
    ∃ (s t : State), (∀ x ∈ s.inputs, x.ofEnvironment = true) ∧
      s.foreground = (if 2 = 2 then [] else [.watch 2 2 0]) ∧ runSteps 1 s = .next t :=
  ⟨⟨2, 0, 6, withPending (.watch 2 0 6) atWrap, _, by decide, by decide, by decide, rfl, by decide⟩,
    ⟨withOp .tickCore atWrap, _, by decide, by decide, rfl⟩⟩

theorem witness_OutputPorts :
    (∃ s t : State, step s = .next t ∧ readsCsNext s = true) ∧
      ∃ s t : State, step s = .next t ∧ readsCsNext s = false ∧ s.reload.getLsbD 16 = true :=
  ⟨⟨withOp .rdCs atWrap, _, rfl, by decide⟩,
    ⟨withOp .rdReload { atWrap with reload := 0x1312CF }, _, rfl, by decide, by decide⟩⟩

end Sys2Proof.Tests
end

/-! PROOFS. The count flag, the request and the reserved bits (`10_state.md`, O6, O7, O9): what an operation and a step
do to the flag and to the request, one equation each. -/

namespace Sys2Proof.Machine

variable {s t : State}

/-! ### Kinds of steps -/

/-- The start of a driver sequence writes only the binding, the tick period and what the foreground has in progress. -/
theorem startCall_frame {c : Call} (h : startCall c s = .next t) :
    ∃ o p f, t = { s with owned := o, period := p, foreground := f } := by
  obtain ⟨-, -, rfl⟩ | ⟨ms, r, -, -, rfl⟩ | ⟨ms, -, -, -, rfl⟩ | ⟨ms, -, -, -, rfl⟩ | ⟨p, -, rfl⟩ :=
    startCall_next_cases h
  all_goals exact ⟨_, _, _, rfl⟩

/-- A step runs an operation, or goes on with what the foreground has in progress, or is no operation at all and
leaves the block and the last value read as they are. -/
theorem step_next_kinds (h : step s = .next t) :
    (∃ i rest, s.turn = .run i rest ∧ exec i { s with inputs := rest } = .next t) ∨
    (∃ p ps rest, s.turn = .goOn p ps rest ∧
      t = runPending p { s with foreground := ps, inputs := rest }) ∨
    ((wrapsNext s = false ∧ readsCsNext s = false ∧ resetsNext s = false ∧ runsHandler s = false) ∧
      ∃ g o p f x, t = { s with gie := g, owned := o, period := p, foreground := f, inputs := x }) := by
  obtain ⟨ht, rfl⟩ | ⟨rest, ht, rfl⟩ | ⟨b, rest, ht, rfl⟩ | ⟨p, ps, rest, ht, rfl⟩ | ⟨c, rest, ht, hc⟩ |
    ⟨i, rest, ht, hi⟩ := step_next_cases h
  · exact .inr (.inr ⟨by simp [wrapsNext, readsCsNext, resetsNext, runsHandler, ht], _, _, _, _, _, rfl⟩)
  · exact .inr (.inr ⟨by simp [wrapsNext, readsCsNext, resetsNext, runsHandler, ht], _, _, _, _, _, rfl⟩)
  · exact .inr (.inr ⟨by simp [wrapsNext, readsCsNext, resetsNext, runsHandler, ht], _, _, _, _, _, rfl⟩)
  · exact .inr (.inl ⟨p, ps, rest, ht, rfl⟩)
  · obtain ⟨o, q, f, rfl⟩ := startCall_frame hc
    exact .inr (.inr ⟨by simp [wrapsNext, readsCsNext, resetsNext, runsHandler, ht], _, _, _, _, _, rfl⟩)
  · exact .inl ⟨i, rest, ht, hi⟩

section
variable {i : Instr} {rest : List Input}

theorem wrapsNext_of_run (h : s.turn = .run i rest) : wrapsNext s = isWrapEvent i s := by
  simp only [wrapsNext, h]

theorem readsCsNext_of_run (h : s.turn = .run i rest) : readsCsNext s = i.readsCs := by
  simp only [readsCsNext, h]

theorem resetsNext_of_run (h : s.turn = .run i rest) : resetsNext s = decide (i = .reset) := by
  cases i <;> simp [resetsNext, h]

theorem runsHandler_of_run (h : s.turn = .run i rest) : runsHandler s = decide (i = .irqTake) := by
  cases i <;> simp [runsHandler, h]

end

/-- Whether one turn of something in progress reads control_status (R15). -/
def Pending.readsCs : Pending → Bool
  | .read r => decide (r = .cs)
  | .modify r _ => decide (r = .cs)
  | .poll n => decide (n ≠ 0)
  | _ => false

/-- A turn of the foreground reads control_status where its access does, and is no wrap event, no RESET and no
handler run. -/
theorem nextIs_of_goOn {p : Pending} {ps : List Pending} {rest : List Input}
    (h : s.turn = .goOn p ps rest) :
    readsCsNext s = p.readsCs ∧ wrapsNext s = false ∧ resetsNext s = false ∧ runsHandler s = false := by
  refine ⟨?_, by simp [wrapsNext, h], by simp [resetsNext, h], by simp [runsHandler, h]⟩
  cases p with
  | read r => cases r <;> simp [readsCsNext, h, Pending.readsCs]
  | modify r f => cases r <;> simp [readsCsNext, h, Pending.readsCs]
  | _ => simp [readsCsNext, h, Pending.readsCs]

/-- Only a count pulse is a wrap event (R75). -/
theorem isPulse_of_isWrapEvent {i : Instr} (h : isWrapEvent i s = true) : i = .tickCore ∨ i = .tickRef := by
  cases i <;> simp [isWrapEvent, isSelectedPulse] at h ⊢

/-- A step that reads control_status, resets the block or runs the handler is no wrap event. -/
theorem wrapsNext_eq_false (h : readsCsNext s = true ∨ resetsNext s = true ∨ runsHandler s = true) :
    wrapsNext s = false := by
  by_contra hw
  unfold wrapsNext at hw
  split at hw
  · rename_i i rest ht
    rw [readsCsNext_of_run ht, resetsNext_of_run ht, runsHandler_of_run ht] at h
    obtain rfl | rfl := isPulse_of_isWrapEvent (by simpa using hw) <;> simp [Instr.readsCs] at h
  · exact hw rfl

/-! ### Which operations are a wrap event, a handler run or RESET -/

@[simp] theorem isWrapEvent_tickCore (s : State) :
    isWrapEvent .tickCore s = (s.clksource && s.enable && s.current == 0) := rfl
@[simp] theorem isWrapEvent_tickRef (s : State) :
    isWrapEvent .tickRef s = (!s.clksource && s.enable && s.current == 0) := rfl
@[simp] theorem isWrapEvent_rdTicks (s : State) : isWrapEvent .rdTicks s = false := rfl
@[simp] theorem isWrapEvent_irqTake (s : State) : isWrapEvent .irqTake s = false := rfl
@[simp] theorem isWrapEvent_irqSpur (s : State) : isWrapEvent .irqSpur s = false := rfl
@[simp] theorem isWrapEvent_reset (s : State) : isWrapEvent .reset s = false := rfl
@[simp] theorem isWrapEvent_setInputs (i : Instr) (s : State) (x : List Input) :
    isWrapEvent i { s with inputs := x } = isWrapEvent i s := by cases i <;> rfl

@[simp] theorem rd_ne_reset (r : Reg) : Instr.rd r ≠ .reset := by cases r <;> nofun
@[simp] theorem wr_ne_reset (r : Reg) (v : Word) : Instr.wr r v ≠ .reset := by cases r <;> nofun
@[simp] theorem md_ne_reset (r : Reg) (f : Fn) : Instr.md r f ≠ .reset := by cases r <;> nofun
@[simp] theorem rd_ne_irqTake (r : Reg) : Instr.rd r ≠ .irqTake := by cases r <;> nofun
@[simp] theorem wr_ne_irqTake (r : Reg) (v : Word) : Instr.wr r v ≠ .irqTake := by cases r <;> nofun
@[simp] theorem md_ne_irqTake (r : Reg) (f : Fn) : Instr.md r f ≠ .irqTake := by cases r <;> nofun

/-! ### The count flag (R15) -/

theorem busRead_countflag (r : Reg) (s : State) :
    (busRead r s).countflag = (s.countflag && !decide (r = .cs)) := by
  cases r <;> simp [busRead]

/-- The count flag after an operation: set by a wrap event, cleared by a read of control_status and by RESET. -/
theorem exec_countflag {i : Instr} (h : exec i s = .next t) :
    t.countflag = (isWrapEvent i s || (s.countflag && !i.readsCs && !decide (i = .reset))) := by
  obtain ⟨r, rfl, rfl⟩ | ⟨r, v, rfl, rfl⟩ | ⟨r, f, rfl, rfl⟩ | ⟨rfl, rfl⟩ | ⟨rfl, rfl⟩ | ⟨rfl, rfl⟩ |
    ⟨rfl, -, -, rfl⟩ | ⟨rfl, -, rfl⟩ | ⟨rfl, rfl⟩ := exec_next_cases h
  · simp [busRead_countflag]
  · simp
  · simp [busRead_countflag]
  · simp [Instr.readsCs]
  · simp [clockPulse_countflag, Instr.readsCs, Bool.or_comm]
  · simp [clockPulse_countflag, Instr.readsCs, Bool.or_comm]
  · simp [Instr.readsCs]
  · simp [Instr.readsCs]
  · simp

theorem runPending_countflag (p : Pending) (s : State) :
    (runPending p s).countflag = (s.countflag && !p.readsCs) := by
  cases p with
  | read r => simp [runPending, Pending.readsCs, busRead_countflag]
  | write r v => simp [runPending, Pending.readsCs]
  | modify r f => simp [runPending, Pending.readsCs, busRead_countflag]
  | readTicks => simp [runPending, Pending.readsCs]
  | poll n =>
    by_cases hn : n = 0
    · simp [runPending, Pending.readsCs, hn, pollTurn]
    · simp [runPending, Pending.readsCs, hn, pollTurn_of_ne]
  | sample needed => simp [runPending, Pending.readsCs, sampleTurn_eq]
  | watch needed n last =>
    by_cases hn : n = needed
    · simp [runPending, Pending.readsCs, hn, watchTurn]
    · simp [runPending, Pending.readsCs, watchTurn_of_ne hn]

/-- The count flag after a step: set by a wrap event, cleared by a read of control_status and by RESET. -/
theorem step_countflag (h : step s = .next t) :
    t.countflag = (wrapsNext s || (s.countflag && !readsCsNext s && !resetsNext s)) := by
  obtain ⟨i, rest, ht, hi⟩ | ⟨p, ps, rest, ht, rfl⟩ | ⟨⟨hw, hc, hr, -⟩, g, o, p, f, x, rfl⟩ :=
    step_next_kinds h
  · rw [wrapsNext_of_run ht, readsCsNext_of_run ht, resetsNext_of_run ht]
    simpa using exec_countflag hi
  · obtain ⟨hc, hw, hr, -⟩ := nextIs_of_goOn ht
    simp [runPending_countflag, hc, hw, hr]
  · simp [hw, hc, hr]

/-- An operation that reads control_status returns its view. -/
theorem exec_rdata_of_readsCs {i : Instr} (hc : i.readsCs = true) (h : exec i s = .next t) :
    t.rdata = s.view .cs := by
  cases i with
  | rdCs => cases h; rfl
  | modCs f => cases h; rfl
  | _ => cases hc

theorem runPending_rdata_of_readsCs {p : Pending} (hc : p.readsCs = true) :
    (runPending p s).rdata = s.view .cs := by
  cases p with
  | read r =>
    obtain rfl : r = .cs := by simpa [Pending.readsCs] using hc
    rfl
  | modify r f =>
    obtain rfl : r = .cs := by simpa [Pending.readsCs] using hc
    rfl
  | poll n =>
    have hn : n ≠ 0 := by simpa [Pending.readsCs] using hc
    simp [runPending, pollTurn_of_ne hn]
  | _ => cases hc

/-- A step that reads control_status returns its view, the flag as it was before the clearing. -/
theorem step_rdata_of_readsCsNext (hc : readsCsNext s = true) (h : step s = .next t) :
    t.rdata = s.view .cs := by
  obtain ⟨i, rest, ht, hi⟩ | ⟨p, ps, rest, ht, rfl⟩ | ⟨⟨-, hn, -⟩, -⟩ := step_next_kinds h
  · exact exec_rdata_of_readsCs (s := { s with inputs := rest }) (readsCsNext_of_run ht ▸ hc) hi
  · exact runPending_rdata_of_readsCs ((nextIs_of_goOn ht).1 ▸ hc)
  · simp [hn] at hc

/-- Settles O6: one equation for the flag after a step, and the view that a read of control_status returns. -/
theorem countFlagCauses : Obligations.CountFlagCauses := by
  refine ⟨fun s t h => ?_, rfl⟩
  have hflag := step_countflag h
  refine ⟨fun hw => ?_, fun hc => ?_, fun hr => ?_, fun hw hc hr => ?_⟩
  · simp [hflag, hw]
  · have hw := wrapsNext_eq_false (.inl hc)
    refine ⟨by simp [hflag, hw, hc], ?_⟩
    rw [step_rdata_of_readsCsNext hc h]
    exact wrapDet_packCs _ _ _ _
  · have hw := wrapsNext_eq_false (.inr (.inl hr))
    simp [hflag, hw, hr]
  · simp [hflag, hw, hc, hr]

/-! ### The request (R23) -/

/-- The request after an operation: set by a wrap event taken with TICKINT = 1, cleared by the handler run and by
RESET. -/
theorem exec_irqPending {i : Instr} (h : exec i s = .next t) :
    t.irqPending = ((isWrapEvent i s && s.tickint) ||
      (s.irqPending && !decide (i = .irqTake) && !decide (i = .reset))) := by
  obtain ⟨r, rfl, rfl⟩ | ⟨r, v, rfl, rfl⟩ | ⟨r, f, rfl, rfl⟩ | ⟨rfl, rfl⟩ | ⟨rfl, rfl⟩ | ⟨rfl, rfl⟩ |
    ⟨rfl, -, -, rfl⟩ | ⟨rfl, -, rfl⟩ | ⟨rfl, rfl⟩ := exec_next_cases h <;>
    simp [clockPulse_irqPending, Bool.or_comm]

/-- The request after a step: set by a wrap event taken with TICKINT = 1, cleared by the handler run and by RESET. -/
theorem step_irqPending (h : step s = .next t) :
    t.irqPending = ((wrapsNext s && s.tickint) || (s.irqPending && !runsHandler s && !resetsNext s)) := by
  obtain ⟨i, rest, ht, hi⟩ | ⟨p, ps, rest, ht, rfl⟩ | ⟨⟨hw, -, hr, hh⟩, g, o, p, f, x, rfl⟩ :=
    step_next_kinds h
  · rw [wrapsNext_of_run ht, runsHandler_of_run ht, resetsNext_of_run ht]
    simpa using exec_irqPending hi
  · obtain ⟨-, hw, hr, hh⟩ := nextIs_of_goOn ht
    obtain ⟨-, -, hirq, -⟩ := runPending_frame p { s with foreground := ps, inputs := rest }
    simp [hirq, hw, hr, hh]
  · simp [hw, hr, hh]

/-- An operation of the foreground commutes with any change of the request. -/
theorem exec_foreground_setIrqPending {i : Instr} (b : Bool) (hi : i.agent = .foreground)
    (h : exec i s = .next t) :
    exec i { s with irqPending := b } = .next { t with irqPending := b } := by
  obtain ⟨r, rfl, rfl⟩ | ⟨r, v, rfl, rfl⟩ | ⟨r, f, rfl, rfl⟩ | ⟨rfl, rfl⟩ | ⟨rfl, -⟩ | ⟨rfl, -⟩ |
    ⟨rfl, -⟩ | ⟨rfl, -⟩ | ⟨rfl, -⟩ := exec_next_cases h
  · cases r <;> rfl
  · cases r <;> rfl
  · cases r <;> rfl
  · rfl
  all_goals cases hi

/-- Settles O7: one equation for the request after a step, and the foreground's operations commute with it. -/
theorem requestCauses : Obligations.RequestCauses := by
  refine ⟨fun s t h => ?_, fun i s t b hi h => exec_foreground_setIrqPending b hi h⟩
  have hirq := step_irqPending h
  refine ⟨fun hw hti => ?_, fun hh => ?_, fun hr => ?_, fun hw hh hr => ?_⟩
  · simp [hirq, hw, hti]
  · have hw := wrapsNext_eq_false (.inr (.inr hh))
    simp [hirq, hw, hh]
  · have hw := wrapsNext_eq_false (.inr (.inl hr))
    simp [hirq, hw, hr]
  · obtain hw | hti := hw
    · simp [hirq, hw, hh, hr]
    · simp [hirq, hti, hh, hr]

/-! ### Reserved bits (R17) -/

/-- The mask of bits 2:0 keeps the low three bits. -/
theorem and_mask_eq_setWidth (d : Word) : d &&& 0x00000007#32 = (d.setWidth 3).setWidth 32 := by
  apply BitVec.eq_of_toNat_eq
  have h : d.toNat &&& 7 = d.toNat % 8 := Nat.and_two_pow_sub_one_eq_mod d.toNat 3
  rw [BitVec.toNat_and, BitVec.toNat_setWidth, BitVec.toNat_setWidth]
  change d.toNat &&& 7 = d.toNat % 2 ^ 3 % 2 ^ 32
  omega

/-- But for the count flag, control_status packed from written data is bits 2:0 of the data: both depend on the
three bits alone. -/
theorem packCs_data_and_mask (cf : Bool) (d : Word) :
    packCs cf (dataClksource d) (dataTickint d) (dataEnable d) &&& 0xFFFEFFFF#32 = d &&& 0x00000007#32 := by
  have hlow (x : BitVec 3) :
      packCs cf (x.getLsbD 2) (x.getLsbD 1) (x.getLsbD 0) &&& 0xFFFEFFFF#32 = x.setWidth 32 := by
    revert cf x; decide
  rw [and_mask_eq_setWidth, ← hlow]
  simp only [BitVec.getLsbD_setWidth]
  rfl

/-- A word below `2^n` has zero from bit `n` on. -/
theorem getLsbD_eq_false_of_toNat_lt {w : Word} {n k : Nat} (h : w.toNat < 2 ^ n) (hk : n ≤ k) :
    w.getLsbD k = false :=
  Nat.testBit_lt_two_pow (h.trans_le (Nat.pow_le_pow_right (by decide) hk))

/-- Settles O9: what is read back after a write is the packing of the written fields, or the truncated data. -/
theorem reservedBitsReadZero : Obligations.ReservedBitsReadZero := by
  intro s
  refine ⟨fun d => ⟨_, _, rfl, rfl, ?_⟩, fun d => ⟨_, _, rfl, rfl, ?_⟩, fun d => ⟨_, _, rfl, rfl, ?_⟩,
    fun hinv k hk => ⟨_, _, rfl, rfl, ?_⟩⟩
  · exact packCs_data_and_mask s.countflag d
  · exact truncCnt_toNat s.cfg d
  · exact truncCnt_toNat s.cfg d
  · obtain ⟨hreload, hcurrent, -⟩ := hinv
    exact ⟨getLsbD_eq_false_of_toNat_lt hreload hk, getLsbD_eq_false_of_toNat_lt hcurrent hk⟩

end Sys2Proof.Machine

/-! PROOFS. The bus operations (`40_bus_operations.md`, O22 to O27, O30 to O32): each access as one equation in the
arithmetic of its data, the words and addresses that decode to it, and what the events in the gap of a MOD leave. -/

namespace Sys2Proof

/-! ### Words and bus addresses that decode to an access (R47, R51) -/

/-- The word of an operation decodes to that operation. -/
theorem decode_encode (i : Instr) : decode (encode i) = .ok i := by
  rw [decode_encode_parts]
  cases i <;> rfl

/-- The word with selector `0x30 + 4*i` and no data, beside a function, is the MOD of register `i` (R47). -/
theorem decode_md (r : Reg) (f : Fn) :
    decode ⟨BitVec.ofNat 40 ((0x30 + 4 * r.index) * 2 ^ 32), f⟩ = .ok (.md r f) := by
  have hbits : BitVec.ofNat 40 ((0x30 + 4 * r.index) * 2 ^ 32) =
      BitVec.ofNat 8 (0x30 + 4 * r.index) ++ (0 : Word) := by cases r <;> decide
  rw [hbits, decode_append]
  cases r <;> rfl

/-- A word read at `TIMER_BASE + 4*i` is the RD of register `i` (R46, R48). -/
theorem decodeBus_rd (cfg : Params) (r : Reg) :
    decodeBus cfg (.read (cfg.timerBase + BitVec.ofNat 32 (4 * r.index)) 4) = .ok (.rd r) := by
  rw [decodeBus_read _ _ (by cases r <;> decide)]
  cases r with
  | cs => exact decode_encode .rdCs
  | reload => exact decode_encode .rdReload
  | current => exact decode_encode .rdCurrent
  | calib => exact decode_encode .rdCalib

/-- A word write at `TIMER_BASE + 4*i` is the WR of register `i` (R46, R48). -/
theorem decodeBus_wr (cfg : Params) (r : Reg) (d : Word) :
    decodeBus cfg (.write (cfg.timerBase + BitVec.ofNat 32 (4 * r.index)) 4 d) = .ok (.wr r d) := by
  rw [decodeBus_write _ _ _ (by cases r <;> decide)]
  cases r with
  | cs => exact decode_encode (.wrCs d)
  | reload => exact decode_encode (.wrReload d)
  | current => exact decode_encode (.wrCurrent d)
  | calib => exact decode_encode (.wrCalib d)

namespace Machine

variable {s t u : State}

/-! ### The accesses in the arithmetic of their data -/

/-- The view of control_status is the sum of its four bits at their weights (R12). -/
theorem view_cs (s : State) :
    s.view .cs = BitVec.ofNat 32 (s.countflag.toNat * 0x00010000 + s.clksource.toNat * 4 +
      s.tickint.toNat * 2 + s.enable.toNat) := by
  have hpack (cf cs ti en : Bool) : packCs cf cs ti en =
      BitVec.ofNat 32 (cf.toNat * 0x00010000 + cs.toNat * 4 + ti.toNat * 2 + en.toNat) := by
    revert cf cs ti en; decide
  exact hpack _ _ _ _

/-- A truncated word is the value modulo `2^CNT_BITS`. -/
theorem truncCnt_eq_ofNat (cfg : Params) (w : Word) :
    truncCnt cfg w = BitVec.ofNat 32 (w.toNat % 2 ^ cfg.cntBits) := by
  rw [← truncCnt_toNat, BitVec.ofNat_toNat, BitVec.setWidth_eq]

/-- A read of control_status returns the view, and what it clears goes to the output `has_wrapped` (R33, R55). -/
theorem busRead_cs_eq (s : State) :
    busRead .cs s = { s with rdata := s.view .cs, hasWrapped := s.countflag, countflag := false } := by
  rw [← busRead_cs_hasWrapped s]
  rfl

/-- A write of control_status takes bits 0, 1 and 2 of the data (R49). -/
theorem busWrite_cs_eq (v : Word) (s : State) :
    busWrite .cs v s = { s with
      enable := decide (v.toNat % 2 = 1)
      tickint := decide (v.toNat / 2 % 2 = 1)
      clksource := decide (v.toNat / 4 % 2 = 1) } := by
  simp only [busWrite, dataEnable, dataTickint, dataClksource, ← BitVec.testBit_toNat,
    Nat.testBit_eq_decide_div_mod_eq, Nat.pow_zero, Nat.div_one, Nat.pow_one, Nat.reducePow]

/-- A write of RELOAD stores the data modulo `2^CNT_BITS` (R49). -/
theorem busWrite_reload_eq (v : Word) (s : State) :
    busWrite .reload v s = { s with reload := BitVec.ofNat 32 (v.toNat % 2 ^ s.cfg.cntBits) } := by
  rw [← truncCnt_eq_ofNat]
  rfl

/-- A write of CURRENT stores the data modulo `2^CNT_BITS` (R49). -/
theorem busWrite_current_eq (v : Word) (s : State) :
    busWrite .current v s = { s with current := BitVec.ofNat 32 (v.toNat % 2 ^ s.cfg.cntBits) } := by
  rw [← truncCnt_eq_ofNat]
  rfl

theorem exec_rd (r : Reg) (s : State) : exec (.rd r) s = .next (busRead r s) := by cases r <;> rfl
theorem exec_wr (r : Reg) (v : Word) (s : State) : exec (.wr r v) s = .next (busWrite r v s) := by
  cases r <;> rfl
theorem exec_md (r : Reg) (f : Fn) (s : State) : exec (.md r f) s = .next (modifyRead r f s) := by
  cases r <;> rfl

/-! ### Reads and writes (R60 to R67) -/

/-- Settles O22: the read as one equation, with the view of control_status as a sum. -/
theorem readControlStatus : Obligations.ReadControlStatus := by
  refine fun s => ⟨?_, decode_encode .rdCs, decodeBus_rd s.cfg .cs⟩
  rw [← view_cs, ← busRead_cs_eq]
  exact exec_rd .cs s

/-- Settles O23: the write takes three bits of the data. -/
theorem writeControlStatus : Obligations.WriteControlStatus := by
  refine fun s d => ⟨?_, decode_encode (.wrCs d), decodeBus_wr s.cfg .cs d⟩
  rw [← busWrite_cs_eq]
  exact exec_wr .cs d s

/-- Settles O24: a read of a count writes `rdata` alone; the bounds are two parts of the invariant. -/
theorem readCounts : Obligations.ReadCounts := by
  refine fun s => ⟨exec_rd .reload s, exec_rd .current s, decode_encode .rdReload, decode_encode .rdCurrent,
    decodeBus_rd s.cfg .reload, decodeBus_rd s.cfg .current, fun hinv => ?_⟩
  obtain ⟨hreload, hcurrent, -⟩ := hinv
  exact ⟨hreload, hcurrent⟩

/-- Settles O25: a write of a count truncates its data. -/
theorem writeCounts : Obligations.WriteCounts := by
  refine fun s d => ⟨?_, ?_, decode_encode (.wrReload d), decode_encode (.wrCurrent d),
    decodeBus_wr s.cfg .reload d, decodeBus_wr s.cfg .current d⟩
  · rw [← busWrite_reload_eq]
    exact exec_wr .reload d s
  · rw [← busWrite_current_eq]
    exact exec_wr .current d s

/-- No sequence of operations changes the parameters (R11). -/
theorem execAll_cfg {l : List Instr} (h : execAll l s = .next t) : t.cfg = s.cfg := by
  refine execAll_induction (P := fun s t => t.cfg = s.cfg) (fun _ => True) (fun _ => rfl) ?_
    (fun _ _ => trivial) h
  intro i s u t _ hi hu
  obtain ⟨hcfg, -⟩ := exec_next_frame hi
  exact hu.trans hcfg

/-- Settles O26: the value read is a parameter, and no operation changes one. -/
theorem readCalibration : Obligations.ReadCalibration := by
  refine fun s => ⟨exec_rd .calib s, fun l t h => ⟨_, exec_rd .calib t, ?_⟩, decode_encode .rdCalib,
    decodeBus_rd s.cfg .calib⟩
  rw [busRead_rdata, ← execAll_cfg h]
  rfl

/-- Settles O27: a write of calibration drops its data. -/
theorem writeCalibration : Obligations.WriteCalibration :=
  fun s d => ⟨exec_wr .calib d s, decode_encode (.wrCalib d), decodeBus_wr s.cfg .calib d⟩

/-! ### What a sequence of events leaves -/

/-- Events leave what the foreground has in progress (R39). -/
theorem execAll_events_foreground {l : List Instr} (hl : ∀ i ∈ l, i.agent ≠ .foreground)
    (h : execAll l s = .next t) : t.foreground = s.foreground := by
  refine execAll_induction (P := fun s t => t.foreground = s.foreground) (fun i => i.agent ≠ .foreground)
    (fun _ => rfl) ?_ hl h
  intro i s u t hi hsu hut
  obtain ⟨hf, -⟩ := exec_event_frame hi hsu
  exact hut.trans hf

/-- The fields that the foreground alone writes, RESET apart: the three control bits and RELOAD. -/
def SameControl (s t : State) : Prop :=
  t.enable = s.enable ∧ t.tickint = s.tickint ∧ t.clksource = s.clksource ∧ t.reload = s.reload

theorem SameControl.refl (s : State) : SameControl s s := ⟨rfl, rfl, rfl, rfl⟩

theorem SameControl.trans (h : SameControl s t) (h' : SameControl t u) : SameControl s u := by
  obtain ⟨he, hti, hc, hr⟩ := h
  obtain ⟨he', hti', hc', hr'⟩ := h'
  exact ⟨he'.trans he, hti'.trans hti, hc'.trans hc, hr'.trans hr⟩

/-- What an event other than RESET can be: a pulse, a handler run, or an interrupt absorbed. -/
theorem exec_event_cases {i : Instr} (hi : i.agent ≠ .foreground) (hr : i ≠ .reset)
    (h : exec i s = .next t) : (∃ c, t = clockPulse c s) ∨ t = takeInterrupt s ∨ t = s := by
  obtain ⟨r, rfl, -⟩ | ⟨r, v, rfl, -⟩ | ⟨r, f, rfl, -⟩ | ⟨rfl, -⟩ | ⟨-, rfl⟩ | ⟨-, rfl⟩ | ⟨-, -, -, rfl⟩ |
    ⟨-, -, rfl⟩ | ⟨rfl, -⟩ := exec_next_cases h
  · exact absurd (agent_rd r) hi
  · exact absurd (agent_wr r v) hi
  · exact absurd (agent_md r f) hi
  · exact absurd rfl hi
  · exact .inl ⟨true, rfl⟩
  · exact .inl ⟨false, rfl⟩
  · exact .inr (.inl rfl)
  · exact .inr (.inr rfl)
  · exact absurd rfl hr

/-- An event other than RESET leaves the control bits and RELOAD as they are. -/
theorem exec_event_sameControl {i : Instr} (hi : i.agent ≠ .foreground) (hr : i ≠ .reset)
    (h : exec i s = .next t) : SameControl s t := by
  obtain ⟨c, rfl⟩ | rfl | rfl := exec_event_cases hi hr h <;> simp [SameControl]

/-- Events other than RESET leave the control bits and RELOAD as they are. -/
theorem execAll_events_sameControl {l : List Instr} (hl : ∀ i ∈ l, i.agent ≠ .foreground ∧ i ≠ .reset)
    (h : execAll l s = .next t) : SameControl s t :=
  execAll_induction (P := SameControl) (fun i => i.agent ≠ .foreground ∧ i ≠ .reset) SameControl.refl
    (fun _ _ _ _ hi hsu hut => (exec_event_sameControl hi.1 hi.2 hsu).trans hut) hl h

/-- A pulse of a stopped counter changes nothing (R81). -/
theorem clockPulse_of_stopped (he : s.enable = false) (c : Bool) : clockPulse c s = s := by
  obtain ⟨-, h⟩ | ⟨-, h⟩ := clockPulse_cases c s
  · exact h
  · rw [h]
    exact if_pos he

/-- Events other than RESET leave the count of a stopped counter as it is. -/
theorem execAll_events_current_of_stopped {l : List Instr}
    (hl : ∀ i ∈ l, i.agent ≠ .foreground ∧ i ≠ .reset) (h : execAll l s = .next t)
    (he : s.enable = false) : t.current = s.current := by
  refine execAll_induction (P := fun s t => s.enable = false → t.current = s.current)
    (fun i => i.agent ≠ .foreground ∧ i ≠ .reset) (fun _ _ => rfl) ?_ hl h he
  intro i s u t ⟨hi, hr⟩ hsu hut he
  obtain ⟨heu, -⟩ := exec_event_sameControl hi hr hsu
  have hcur : u.current = s.current := by
    obtain ⟨c, rfl⟩ | rfl | rfl := exec_event_cases hi hr hsu
    · rw [clockPulse_of_stopped he]
    · exact takeInterrupt_current s
    · rfl
  exact (hut (heu.trans he)).trans hcur

/-- The wrap events of a run are those of its first operation and those of the rest. -/
theorem wrapCount_cons_pos {i : Instr} {l : List Instr} (h : exec i s = .next u) :
    0 < wrapCount (i :: l) s ↔ isWrapEvent i s = true ∨ 0 < wrapCount l u := by
  cases hw : isWrapEvent i s with
  | true => simp [wrapCount, h, hw]
  | false => simp [wrapCount, h, hw]

/-- With no read of control_status and no RESET, the flag is set afterwards if it was before or a wrap event came
(R15). -/
theorem execAll_countflag {l : List Instr} (hl : ∀ i ∈ l, i.readsCs = false ∧ i ≠ .reset)
    (h : execAll l s = .next t) : t.countflag = true ↔ s.countflag = true ∨ 0 < wrapCount l s := by
  induction l generalizing s with
  | nil => cases h; simp [wrapCount]
  | cons i l ih =>
    obtain ⟨u, hi, hu⟩ := execAll_cons_next h
    obtain ⟨⟨hc, hr⟩, hl⟩ := List.forall_mem_cons.mp hl
    have hflag : u.countflag = (isWrapEvent i s || s.countflag) := by simp [exec_countflag hi, hc, hr]
    rw [ih hl hu, wrapCount_cons_pos hi, hflag, Bool.or_eq_true]
    tauto

/-- With TICKINT = 1, events without a handler run and without RESET leave the request set if it was before or a wrap
event came (R23). -/
theorem execAll_events_irqPending {l : List Instr} (hl : ∀ i ∈ l, i.agent ≠ .foreground ∧ i ≠ .reset)
    (htake : Instr.irqTake ∉ l) (hti : s.tickint = true) (h : execAll l s = .next t) :
    t.irqPending = true ↔ s.irqPending = true ∨ 0 < wrapCount l s := by
  induction l generalizing s with
  | nil => cases h; simp [wrapCount]
  | cons i l ih =>
    obtain ⟨u, hi, hu⟩ := execAll_cons_next h
    obtain ⟨⟨hfg, hr⟩, hl⟩ := List.forall_mem_cons.mp hl
    obtain ⟨hne, htake⟩ := List.ne_and_not_mem_of_not_mem_cons htake
    obtain ⟨-, htu, -⟩ := exec_event_sameControl hfg hr hi
    have hirq : u.irqPending = (isWrapEvent i s || s.irqPending) := by
      simp [exec_irqPending hi, hti, hr, Ne.symm hne]
    rw [ih hl htake (htu.trans hti) hu, wrapCount_cons_pos hi, hirq, Bool.or_eq_true]
    tauto

/-- Only the foreground reads control_status. -/
theorem readsCs_of_event {i : Instr} (hi : i.agent ≠ .foreground) : i.readsCs = false := by
  cases i with
  | rdCs => exact absurd rfl hi
  | modCs f => exact absurd rfl hi
  | _ => rfl

/-! ### Read-modify-writes (R42, R68 to R70) -/

/-- The foreground's turn does the write it has in progress. -/
theorem step_resume_write {r : Reg} {v : Word} {ps : List Pending} (hf : s.foreground = .write r v :: ps)
    (rest : List Input) :
    step { s with inputs := .resume :: rest } =
      .next (busWrite r v { s with foreground := ps, inputs := rest }) := by
  simp only [step, turn_of_resume (s := { s with inputs := .resume :: rest }) rfl hf, runPending]

/-- The write half of a MOD after any events: the write of `f` of the value read, in the state that the events left
(R42). -/
theorem step_writeHalf_after_events {r : Reg} {f : Fn} {gap : List Instr}
    (hgap : ∀ i ∈ gap, i.agent ≠ .foreground) (h : execAll gap (modifyRead r f s) = .next u)
    (rest : List Input) :
    step { u with inputs := .resume :: rest } =
      .next (busWrite r (f.eval (s.view r)) { u with foreground := s.foreground, inputs := rest }) :=
  step_resume_write ((execAll_events_foreground hgap h).trans (modifyRead_foreground s r f)) rest

/-- Events among which there is no RESET are events and no RESET each. -/
theorem forall_event_ne_reset {gap : List Instr} (hgap : ∀ i ∈ gap, i.agent ≠ .foreground)
    (hr : Instr.reset ∉ gap) : ∀ i ∈ gap, i.agent ≠ .foreground ∧ i ≠ .reset :=
  fun i hi => ⟨hgap i hi, ne_of_mem_of_not_mem hi hr⟩

/-- Settles O30: the read half clears the flag, so after the gap it is set exactly if a wrap event came, and the write
half leaves it. -/
theorem modifyControlStatus : Obligations.ModifyControlStatus := by
  intro s f v hv
  obtain rfl : v = s.view .cs := hv.trans (view_cs s).symm
  refine ⟨modifyRead .cs f s, by rw [modifyRead, busRead_cs_eq], exec_md .cs f s, ?_, decode_md .cs f⟩
  intro gap u rest hgap h
  refine ⟨by rw [step_writeHalf_after_events hgap h, busWrite_cs_eq], fun hr => ?_⟩
  have hev := forall_event_ne_reset hgap hr
  obtain ⟨he, hti, hc, -⟩ := execAll_events_sameControl hev h
  have hflag := execAll_countflag (fun i hi => ⟨readsCs_of_event (hev i hi).1, (hev i hi).2⟩) h
  exact ⟨by simpa using hflag, by simpa using he, by simpa using hti, by simpa using hc⟩

/-- Settles O31: no event but RESET writes RELOAD, so the value written is a function of the value overwritten. -/
theorem modifyReload : Obligations.ModifyReload := by
  refine fun s f => ⟨modifyRead .reload f s, rfl, exec_md .reload f s, fun gap u rest hgap h => ?_,
    decode_md .reload f⟩
  have hcfg : u.cfg = s.cfg := by simpa using execAll_cfg h
  obtain ⟨-, -, -, hreload⟩ := execAll_events_sameControl hgap h
  refine ⟨by simpa using hreload, ?_⟩
  rw [step_writeHalf_after_events (fun i hi => (hgap i hi).1) h, busWrite_reload_eq, hcfg]
  rfl

/-- Settles O32: the value written is a function of the count read, whatever the gap did; a wrap event in the gap
leaves its flag and request, and a stopped counter does not move in it. -/
theorem modifyCurrent : Obligations.ModifyCurrent := by
  refine fun s f => ⟨modifyRead .current f s, rfl, exec_md .current f s, fun gap u rest hgap h => ?_,
    decode_md .current f⟩
  have hcfg : u.cfg = s.cfg := by simpa using execAll_cfg h
  refine ⟨?_, fun hr hw => ⟨?_, fun hti htake => ?_⟩, fun hr he => ?_⟩
  · rw [step_writeHalf_after_events hgap h, busWrite_current_eq, hcfg]
    rfl
  · exact (execAll_countflag (fun i hi => ⟨readsCs_of_event (hgap i hi), ne_of_mem_of_not_mem hi hr⟩) h).mpr
      (.inr hw)
  · exact (execAll_events_irqPending (forall_event_ne_reset hgap hr) htake (by simpa using hti) h).mpr
      (.inr hw)
  · simpa using execAll_events_current_of_stopped (forall_event_ne_reset hgap hr) h (by simpa using he)

end Machine
end Sys2Proof

/-! PROOFS. Count pulses, the wrap event and the flag extractor (`41_counter_events.md`, O33, O34, O35, O38): the count
step in the arithmetic of its count, and runs of pulses of the selected clock put together from shorter ones. -/

namespace Sys2Proof.Machine

variable {s t u : State} {i : Instr}

/-! ### The count step in the arithmetic of its count (R75) -/

/-- What a wrap event makes of a state (R75). -/
def State.wrapped (s : State) : State :=
  { s with current := s.reload, countflag := true, irqPending := s.tickint || s.irqPending }

@[simp] theorem State.wrapped_enable (s : State) : s.wrapped.enable = s.enable := rfl
@[simp] theorem State.wrapped_clksource (s : State) : s.wrapped.clksource = s.clksource := rfl
@[simp] theorem State.wrapped_reload (s : State) : s.wrapped.reload = s.reload := rfl
@[simp] theorem State.wrapped_current (s : State) : s.wrapped.current = s.reload := rfl

/-- A second wrap event leaves what the first one left: the flag and the request are sticky. -/
@[simp] theorem State.wrapped_wrapped (s : State) : s.wrapped.wrapped = s.wrapped := by
  simp [State.wrapped]

/-- A decrement that does not underflow is one on naturals (R80). -/
theorem sub_one_eq_ofNat_of_ne_zero {w : Word} (h : w.toNat ≠ 0) :
    w - 1 = BitVec.ofNat 32 (w.toNat - 1) := by
  bv_omega

/-- The count step as one equation, its count a natural number. -/
theorem countStep_eq (s : State) :
    countStep s =
      if s.enable = true then
        if s.current.toNat = 0 then s.wrapped
        else { s with current := BitVec.ofNat 32 (s.current.toNat - 1) }
      else s := by
  obtain ⟨he, h⟩ | ⟨he, hc, h⟩ | ⟨he, hc, h⟩ := countStep_cases s
  · simp [h, he]
  · simp [h, he, hc, State.wrapped]
  · have hn : s.current.toNat ≠ 0 := fun h0 => hc (BitVec.eq_of_toNat_eq h0)
    rw [h, if_pos he, if_neg hn, sub_one_eq_ofNat_of_ne_zero hn]

/-- A count step at CURRENT = 0 is a wrap event. -/
theorem countStep_of_zero (he : s.enable = true) (hc : s.current.toNat = 0) : countStep s = s.wrapped := by
  rw [countStep_eq, if_pos he, if_pos hc]

/-- A count step above 0 decrements. -/
theorem countStep_of_ne_zero (he : s.enable = true) (hc : s.current.toNat ≠ 0) :
    countStep s = { s with current := BitVec.ofNat 32 (s.current.toNat - 1) } := by
  rw [countStep_eq, if_pos he, if_neg hc]

/-- Settles O33: the count step by its equation; the flag and the request by what sets them in an operation. -/
theorem countStepAndWrapEvent : Obligations.CountStepAndWrapEvent := by
  refine ⟨fun s => ?_, fun i s t h => ⟨fun hs ht => ?_, fun hs ht => ?_⟩⟩
  · have hor : (if s.tickint = true then true else s.irqPending) = (s.tickint || s.irqPending) := by
      cases s.tickint <;> rfl
    rw [countStep_eq, hor]
    by_cases he : s.enable = true
    · have hne : ¬ s.enable = false := by simp [he]
      rw [if_pos he, if_neg hne]
      rfl
    · rw [if_neg he, if_pos (by simpa using he)]
  · simpa [exec_countflag h, hs] using ht
  · simpa [exec_irqPending h, hs] using ht

/-! ### The two pulses (R76, R77) -/

/-- A pulse of one clock as one equation. -/
theorem clockPulse_eq (c : Bool) (s : State) :
    clockPulse c s =
      if s.clksource = c then
        if s.enable = true then
          if s.current.toNat = 0 then s.wrapped
          else { s with current := BitVec.ofNat 32 (s.current.toNat - 1) }
        else s
      else s := by
  rw [clockPulse, countStep_eq]

/-- Settles O34: each pulse is the count step where CLKSOURCE selects its clock. -/
theorem clockPulses : Obligations.ClockPulses :=
  fun s => ⟨congrArg _ (clockPulse_eq true s), congrArg _ (clockPulse_eq false s), decode_encode .tickCore,
    decode_encode .tickRef⟩

/-! ### Runs of pulses of the selected clock (R78) -/

/-- A pulse of the selected clock is a count step. -/
theorem exec_of_isSelectedPulse (hi : isSelectedPulse i s = true) : exec i s = .next (countStep s) := by
  cases i with
  | tickCore => exact congrArg _ (if_pos (by simpa [isSelectedPulse] using hi))
  | tickRef => exact congrArg _ (if_pos (by simpa [isSelectedPulse] using hi))
  | _ => cases hi

/-- A run of operations goes on from where its first part ends. -/
theorem execAll_append {l l' : List Instr} (h : execAll l s = .next t) :
    execAll (l ++ l') s = execAll l' t := by
  induction l generalizing s with
  | nil => cases h; rfl
  | cons i l ih =>
    obtain ⟨u, hi, hu⟩ := execAll_cons_next h
    simpa [execAll, hi] using ih hu

/-- The wrap events of a run are those of its first part and those of the rest. -/
theorem wrapCount_append {l l' : List Instr} (h : execAll l s = .next t) :
    wrapCount (l ++ l') s = wrapCount l s + wrapCount l' t := by
  induction l generalizing s with
  | nil => cases h; simp [wrapCount]
  | cons i l ih =>
    obtain ⟨u, hi, hu⟩ := execAll_cons_next h
    simp [wrapCount, hi, ih hu, Nat.add_assoc]

/-- `k` operations `i` lead from `s` to `t`, with `n` wrap events among them. -/
def PulseRun (i : Instr) (k n : Nat) (s t : State) : Prop :=
  execAll (List.replicate k i) s = .next t ∧ wrapCount (List.replicate k i) s = n

theorem PulseRun.zero (i : Instr) (s : State) : PulseRun i 0 0 s s := ⟨rfl, rfl⟩

theorem PulseRun.trans {k k' n n' : Nat} (h : PulseRun i k n s t) (h' : PulseRun i k' n' t u) :
    PulseRun i (k + k') (n + n') s u := by
  obtain ⟨hexec, hwraps⟩ := h
  obtain ⟨hexec', hwraps'⟩ := h'
  rw [PulseRun, List.replicate_add, execAll_append hexec, wrapCount_append hexec, hwraps, hwraps']
  exact ⟨hexec', rfl⟩

/-- One pulse of the running counter is a count step, and a wrap event at CURRENT = 0. -/
theorem PulseRun.one (hi : isSelectedPulse i s = true) (he : s.enable = true) :
    PulseRun i 1 (if s.current.toNat = 0 then 1 else 0) s (countStep s) := by
  have hzero : s.current = 0#32 ↔ s.current.toNat = 0 := BitVec.toNat_inj.symm
  simp [PulseRun, execAll, wrapCount, exec_of_isSelectedPulse hi, isWrapEvent, hi, he, hzero]

/-- One pulse at CURRENT = 0 is a wrap event. -/
theorem PulseRun.one_of_zero (hi : isSelectedPulse i s = true) (he : s.enable = true)
    (hc : s.current.toNat = 0) : PulseRun i 1 1 s s.wrapped := by
  simpa [hc, countStep_of_zero he hc] using PulseRun.one hi he

/-- One pulse above 0 is a decrement and no wrap event. -/
theorem PulseRun.one_of_ne_zero (hi : isSelectedPulse i s = true) (he : s.enable = true)
    (hc : s.current.toNat ≠ 0) :
    PulseRun i 1 0 s { s with current := BitVec.ofNat 32 (s.current.toNat - 1) } := by
  have h := PulseRun.one hi he
  rwa [if_neg hc, countStep_of_ne_zero he hc] at h

/-- Up to CURRENT pulses count down and none is a wrap event. -/
theorem pulseRun_countdown {k : Nat} (hi : isSelectedPulse i s = true) (he : s.enable = true)
    (hk : k ≤ s.current.toNat) :
    PulseRun i k 0 s { s with current := BitVec.ofNat 32 (s.current.toNat - k) } := by
  induction k with
  | zero => simpa using PulseRun.zero i s
  | succ k ih =>
    have hcur : (BitVec.ofNat 32 (s.current.toNat - k)).toNat = s.current.toNat - k := by bv_omega
    have hpulse := PulseRun.one_of_ne_zero (s := { s with current := BitVec.ofNat 32 (s.current.toNat - k) })
      ((isSelectedPulse_of_clksource rfl i).trans hi) he (by dsimp only; omega)
    simp only [hcur, Nat.sub_sub] at hpulse
    exact (ih (by omega)).trans hpulse

/-- The first wrap event is pulse CURRENT + 1. -/
theorem pulseRun_wrap (hi : isSelectedPulse i s = true) (he : s.enable = true) :
    PulseRun i (s.current.toNat + 1) 1 s s.wrapped := by
  have hdown := pulseRun_countdown hi he (Nat.le_refl s.current.toNat)
  rw [Nat.sub_self] at hdown
  exact hdown.trans (PulseRun.one_of_zero ((isSelectedPulse_of_clksource rfl i).trans hi) he rfl)

/-- After the first wrap event there is one every RELOAD + 1 pulses, each with CURRENT = RELOAD again. -/
theorem pulseRun_wraps (hi : isSelectedPulse i s = true) (he : s.enable = true) (m : Nat) :
    PulseRun i (s.current.toNat + 1 + m * (s.reload.toNat + 1)) (m + 1) s s.wrapped := by
  induction m with
  | zero => simpa using pulseRun_wrap hi he
  | succ m ih =>
    have hperiod := pulseRun_wrap (s := s.wrapped) ((isSelectedPulse_of_clksource rfl i).trans hi) he
    rw [State.wrapped_wrapped] at hperiod
    rw [Nat.succ_mul, ← Nat.add_assoc]
    exact ih.trans hperiod

/-- Settles O35: the countdown; then the wrap events by induction on their number, and a countdown after the last. -/
theorem periodLaw : Obligations.PeriodLaw := by
  refine fun s i hi he => ⟨fun k hk => pulseRun_countdown hi he hk, fun m j hj => ?_⟩
  have hdown := pulseRun_countdown (s := s.wrapped) ((isSelectedPulse_of_clksource rfl i).trans hi) he hj
  exact (pulseRun_wraps hi he m).trans hdown

/-! ### The extractor (R79) -/

/-- The extractor is the test against the mask of bit 16. -/
theorem wrapDet_iff_and_mask (v : Word) : wrapDet v = true ↔ v &&& 0x00010000#32 ≠ 0 := by
  have hmask : 0x00010000#32 = BitVec.twoPow 32 16 := rfl
  rw [hmask, BitVec.and_twoPow, wrapDet]
  cases v.getLsbD 16 <;> decide

/-- Settles O38: the mask test for every word; the corner cases are words. -/
theorem wrapDetectIsBitSixteen : Obligations.WrapDetectIsBitSixteen :=
  ⟨wrapDet_iff_and_mask, by decide, by decide, by decide, by decide⟩

end Sys2Proof.Machine

/-! PROOFS. The Tick Counter and the interrupt deliveries (`42_tick_update.md`, O8, O40, O41, O42, O44): the update
function is addition, and one equation each for the counter after an operation, after a step and after a run. -/

namespace Sys2Proof.Machine

variable {s t : State} {i : Instr}

/-! ### The update function (R85) -/

/-- The explicit test of TICKUPD is the wrap of 32-bit addition. -/
theorem tickUpd_eq_add_one (w : Word) : tickUpd w = w + 1 := by
  unfold tickUpd
  split
  · next hmax => subst hmax; rfl
  · rfl

/-- Settles O40: the first form is the definition, the second is addition modulo `2^32`. -/
theorem tickUpdateFunction : Obligations.TickUpdateFunction := by
  refine fun w => ⟨rfl, ?_⟩
  rw [tickUpd_eq_add_one]
  exact BitVec.toNat_add w 1

/-! ### The two deliveries (R86, R87) -/

/-- Taking the interrupt as one equation (R86). -/
theorem takeInterrupt_eq (s : State) :
    takeInterrupt s = { s with
      irqPending := false
      ticks := if s.cfg.handlerWired = true then s.ticks + 1 else s.ticks } := by
  rw [← tickUpd_eq_add_one, ← takeInterrupt_ticks]
  unfold takeInterrupt returnFromHandler runHandler
  split <;> rfl

/-- IRQ.TAKE tests its enabling condition and takes the interrupt. -/
theorem exec_irqTake (s : State) : exec .irqTake s =
    if s.irqPending = true ∧ s.gie = true then .next (takeInterrupt s) else .refused .takeNotEnabled := by
  simp only [← Bool.and_eq_true]
  rfl

/-- IRQ.SPUR tests GIE, and the default handler is the identity. -/
theorem exec_irqSpur (s : State) :
    exec .irqSpur s = if s.gie = true then .next s else .refused .spurNotEnabled := rfl

/-- Settles O41: IRQ.TAKE tests its condition, and taking the interrupt is one equation. (The obligation's own name in
lowerCamelCase is the model's operation.) -/
theorem takeInterrupt_holds : Obligations.TakeInterrupt := by
  refine ⟨fun s hirq hgie => ?_, fun s hoff => ?_, decode_encode .irqTake⟩
  · have hadd : s.ticks + 1 = BitVec.ofNat 32 ((s.ticks.toNat + 1) % 2 ^ 32) := by bv_omega
    rw [exec_irqTake, if_pos ⟨hirq, hgie⟩, takeInterrupt_eq, hadd]
  · rw [exec_irqTake, if_neg]
    rintro ⟨hirq, hgie⟩
    simp [hirq, hgie] at hoff

/-- Settles O42: GIE is the whole condition of IRQ.SPUR, and its step changes nothing. -/
theorem spuriousInterruptIsAbsorbed : Obligations.SpuriousInterruptIsAbsorbed := by
  refine ⟨fun s hgie => ?_, fun s hgie => ?_, decode_encode .irqSpur⟩
  · rw [exec_irqSpur, if_pos hgie]
  · rw [exec_irqSpur, if_neg (by simp [hgie])]

/-! ### The writers of the Tick Counter (R90) -/

/-- The Tick Counter after an operation: 0 after RESET, one more after a run of the registered handler, and as it was
after every other. -/
theorem exec_ticks (h : exec i s = .next t) :
    t.ticks = if i = .reset then 0
      else if i = .irqTake ∧ s.cfg.handlerWired = true then s.ticks + 1
      else s.ticks := by
  obtain ⟨r, rfl, rfl⟩ | ⟨r, v, rfl, rfl⟩ | ⟨r, f, rfl, rfl⟩ | ⟨rfl, rfl⟩ | ⟨rfl, rfl⟩ | ⟨rfl, rfl⟩ |
    ⟨rfl, -, -, rfl⟩ | ⟨rfl, -, rfl⟩ | ⟨rfl, rfl⟩ := exec_next_cases h <;>
    simp [tickUpd_eq_add_one]

/-- The Tick Counter after a step: RESET and the handler run alone write it. -/
theorem step_ticks (h : step s = .next t) :
    t.ticks = if resetsNext s = true then 0
      else if runsHandler s = true ∧ s.cfg.handlerWired = true then s.ticks + 1
      else s.ticks := by
  obtain ⟨i, rest, ht, hi⟩ | ⟨p, ps, rest, ht, rfl⟩ | ⟨⟨-, -, hr, hh⟩, g, o, p, f, x, rfl⟩ :=
    step_next_kinds h
  · simpa [resetsNext_of_run ht, runsHandler_of_run ht] using exec_ticks hi
  · obtain ⟨-, -, hr, hh⟩ := nextIs_of_goOn ht
    obtain ⟨-, hticks, -⟩ := runPending_frame p { s with foreground := ps, inputs := rest }
    simp [hticks, hr, hh]
  · simp [hr, hh]

/-- Settles O8: the last case of the equation for the counter after a step. -/
theorem ticksSingleWriter : Obligations.TicksSingleWriter := by
  intro s t h hh hr
  simp [step_ticks h, hh, hr]

/-! ### The handler runs of a run (R88, R89) -/

/-- With the handler registered, a run without RESET adds one to the Tick Counter for each IRQ.TAKE in it. -/
theorem execAll_ticks {l : List Instr} (hw : s.cfg.handlerWired = true) (hr : Instr.reset ∉ l)
    (h : execAll l s = .next t) : t.ticks = s.ticks + BitVec.ofNat 32 (l.count .irqTake) := by
  induction l generalizing s with
  | nil => cases h; simp
  | cons i l ih =>
    obtain ⟨u, hi, hu⟩ := execAll_cons_next h
    obtain ⟨hne, hr⟩ := List.ne_and_not_mem_of_not_mem_cons hr
    obtain ⟨hcfg, -⟩ := exec_next_frame hi
    rw [ih (hcfg ▸ hw) hr hu, exec_ticks hi, if_neg (Ne.symm hne)]
    by_cases htake : i = .irqTake
    · subst htake
      rw [if_pos ⟨rfl, hw⟩, List.count_cons_self]
      bv_omega
    · rw [if_neg (fun hc => htake hc.1), List.count_cons_of_ne htake]

/-- Settles O44: the difference of the readings is the number of handler runs as a word, which fewer than `2^32` fit. -/
theorem elapsedCountsHandlerRuns : Obligations.ElapsedCountsHandlerRuns := by
  intro l s t hw hr hlt h
  rw [elapsed, execAll_ticks hw hr h, add_sub_cancel_left, BitVec.toNat_ofNat]
  exact Nat.mod_eq_of_lt hlt

end Sys2Proof.Machine

/-! PROOFS. The driver sequences (`43_driver_sequences.md`, O49): where the reload computation has no value, and the start
of a sequence as one step. -/

namespace Sys2Proof.Machine

variable {s : State}

/-! ### The reload computation (R106) -/

/-- Under the preconditions the product is at least 1, so the subtraction of RELOADVAL does not underflow. -/
theorem one_le_mul_ticksPerMs {cfg : Params} {ms : Nat} (hms : 1 ≤ ms) (hhz : 1000 ≤ cfg.fCoreHz) :
    1 ≤ ms * (cfg.fCoreHz / 1000) :=
  Nat.mul_pos hms (Nat.div_pos hhz (by decide))

/-- The reload computation has no value exactly where one of its preconditions fails. -/
theorem reloadVal_eq_none_iff (cfg : Params) (ms : Nat) :
    reloadVal cfg ms = none ↔
      ms = 0 ∨ cfg.fCoreHz < 1000 ∨ 2 ^ cfg.cntBits < ms * (cfg.fCoreHz / 1000) := by
  simp only [Option.eq_none_iff_forall_ne_some, ne_eq, reloadVal_eq_some, not_and', forall_eq]
  omega

/-! ### The start of a driver sequence as one step -/

/-- With nothing in progress, a call that is the next input starts in that step. -/
theorem step_of_call {c : Call} {rest : List Input} (hx : s.inputs = .call c :: rest)
    (hf : s.foreground = []) : step s = startCall c { s with inputs := rest } := by
  simp only [step, turn_of_call hx hf]

/-- `init` is refused by name where the reload computation has no value. -/
theorem startCall_init_of_reloadVal_none {ms : Word} (h : reloadVal s.cfg ms.toNat = none) :
    startCall (.init ms) s = .refused .reloadPrecondition := by
  simp only [startCall, startInit, h]

/-- Settles O49: the product is positive, so adding one undoes the subtraction; and where a precondition fails the
computation has no value, at which the step that starts `init` is refused. -/
theorem reloadComputation : Obligations.ReloadComputation := by
  refine ⟨fun cfg ms hms hhz hfit => ?_, fun s ms rest hf hx hbroken => ?_⟩
  · have hval := (reloadVal_eq_some cfg ms _).mpr ⟨⟨hms, hhz, hfit⟩, rfl⟩
    exact ⟨_, hval, Nat.sub_add_cancel (one_le_mul_ticksPerMs hms hhz)⟩
  · have hnone := (reloadVal_eq_none_iff s.cfg ms.toNat).mpr hbroken
    exact (step_of_call hx hf).trans (startCall_init_of_reloadVal_none hnone)

end Sys2Proof.Machine

/-! PROOFS. The merged requests (`60_exceptions.md`, O46): what happens between two handler runs leaves the counter. -/

namespace Sys2Proof.Machine

variable {s t : State}

/-- With the handler registered, a run without IRQ.TAKE and RESET keeps the Tick Counter, whatever wrap events it has. -/
theorem execAll_ticks_of_no_handler_run {l : List Instr} (hw : s.cfg.handlerWired = true)
    (hl : ∀ i ∈ l, i ≠ .irqTake ∧ i ≠ .reset) (h : execAll l s = .next t) : t.ticks = s.ticks := by
  have hreset : Instr.reset ∉ l := fun hi => (hl _ hi).2 rfl
  have htake : l.count .irqTake = 0 := List.count_eq_zero.mpr fun hi => (hl _ hi).1 rfl
  rw [execAll_ticks hw hreset h, htake]
  exact BitVec.add_zero s.ticks

/-- Settles O46: the operations before the handler run keep the counter, so its run adds the one; and IRQ.TAKE, itself
no wrap event, clears the one request bit in which all wrap events merged. -/
theorem requestsMerge : Obligations.RequestsMerge := by
  intro l s t u hw hl ht hu
  have hkept : t.ticks = s.ticks := execAll_ticks_of_no_handler_run hw hl ht
  have hwired : t.cfg.handlerWired = true := by rw [execAll_cfg ht, hw]
  refine ⟨?_, ?_⟩
  · simp [exec_ticks hu, hwired, hkept]
  · simp [exec_irqPending hu]

end Sys2Proof.Machine

/-! PROOFS. Reset and the invariant (`10_state.md`, `70_reset_and_hazards.md`, O1 to O5): the counts fit, the
tick period is positive and the loops in progress are live, each kept by what a step can do. -/

namespace Sys2Proof.Machine

variable {s t : State} {i : Instr}

/-! ### The two counts (R25) -/

/-- RELOAD and CURRENT fit their CNT_BITS bits. -/
def State.CountsFit (s : State) : Prop :=
  s.reload.toNat < 2 ^ s.cfg.cntBits ∧ s.current.toNat < 2 ^ s.cfg.cntBits

/-- The invariant is its three parts: the counts, the tick period and the loops in progress. -/
theorem inv_iff : s.Inv ↔ s.CountsFit ∧ 0 < s.period ∧ ∀ p ∈ s.foreground, p.live = true := by
  rw [State.Inv, State.CountsFit, and_assoc]

/-- The counts fit wherever the parameters and the counts are those of a state in which they fit. -/
theorem State.CountsFit.congr (h : s.CountsFit) (hcfg : t.cfg = s.cfg) (hr : t.reload = s.reload)
    (hc : t.current = s.current) : t.CountsFit := by
  rw [State.CountsFit, hcfg, hr, hc]
  exact h

theorem busRead_countsFit (h : s.CountsFit) (r : Reg) : (busRead r s).CountsFit :=
  h.congr (busRead_cfg s r) (busRead_reload s r) (busRead_current s r)

theorem modifyRead_countsFit (h : s.CountsFit) (r : Reg) (f : Fn) : (modifyRead r f s).CountsFit :=
  h.congr (modifyRead_cfg s r f) (modifyRead_reload s r f) (modifyRead_current s r f)

/-- A write stores a truncated word in a count, or leaves both counts. -/
theorem busWrite_countsFit (h : s.CountsFit) (r : Reg) (v : Word) : (busWrite r v s).CountsFit := by
  obtain ⟨hr, hc⟩ := h
  cases r with
  | cs => exact ⟨hr, hc⟩
  | reload => exact ⟨truncCnt_lt s.cfg v, hc⟩
  | current => exact ⟨hr, truncCnt_lt s.cfg v⟩
  | calib => exact ⟨hr, hc⟩

/-- A pulse reloads CURRENT from RELOAD or decrements it above 0, so the count neither outgrows its bits nor
underflows (R80). -/
theorem clockPulse_current_le (c : Bool) (s : State) :
    (clockPulse c s).current.toNat ≤ max s.current.toNat s.reload.toNat := by
  obtain ⟨-, h⟩ | ⟨-, h⟩ := clockPulse_cases c s
  · rw [h]
    exact Nat.le_max_left _ _
  · obtain ⟨-, h'⟩ | ⟨-, -, h'⟩ | ⟨-, hne, h'⟩ := countStep_cases s <;> rw [h, h']
    · exact Nat.le_max_left _ _
    · exact Nat.le_max_right _ _
    · have hdec : (s.current - 1).toNat ≤ s.current.toNat := by bv_omega
      exact hdec.trans (Nat.le_max_left _ _)

theorem clockPulse_countsFit (h : s.CountsFit) (c : Bool) : (clockPulse c s).CountsFit := by
  obtain ⟨hr, hc⟩ := h
  rw [State.CountsFit, clockPulse_cfg, clockPulse_reload]
  exact ⟨hr, (clockPulse_current_le c s).trans_lt (max_lt hc hr)⟩

/-- Every operation keeps the counts within their bits. -/
theorem exec_countsFit (hs : s.CountsFit) (h : exec i s = .next t) : t.CountsFit := by
  obtain ⟨r, -, rfl⟩ | ⟨r, v, -, rfl⟩ | ⟨r, f, -, rfl⟩ | ⟨-, rfl⟩ | ⟨-, rfl⟩ | ⟨-, rfl⟩ | ⟨-, -, -, rfl⟩ |
    ⟨-, -, rfl⟩ | ⟨-, rfl⟩ := exec_next_cases h
  · exact busRead_countsFit hs r
  · exact busWrite_countsFit hs r v
  · exact modifyRead_countsFit hs r f
  · exact hs
  · exact clockPulse_countsFit hs true
  · exact clockPulse_countsFit hs false
  · exact hs.congr (takeInterrupt_cfg s) (takeInterrupt_reload s) (takeInterrupt_current s)
  · exact hs
  · exact ⟨truncCnt_lt s.cfg _, truncCnt_lt s.cfg _⟩

/-- Every turn of the foreground keeps the counts within their bits. -/
theorem runPending_countsFit (hs : s.CountsFit) (p : Pending) : (runPending p s).CountsFit := by
  cases p with
  | read r => exact busRead_countsFit hs r
  | write r v => exact busWrite_countsFit hs r v
  | modify r f => exact modifyRead_countsFit hs r f
  | readTicks => exact hs
  | poll n =>
    by_cases hn : n = 0
    · simpa [runPending, pollTurn, hn] using hs
    · rw [runPending, pollTurn_of_ne hn]
      exact busRead_countsFit hs .cs
  | sample needed => exact hs
  | watch needed n last =>
    by_cases hn : n = needed
    · simpa [runPending, watchTurn, hn] using hs
    · rw [runPending, watchTurn_of_ne hn]
      exact hs

/-! ### The loops in progress (D26) -/

theorem live_of_mem_pollRest {n : Nat} {p : Pending} (h : p ∈ pollRest n) : p.live = true := by
  obtain ⟨rfl, hn⟩ := mem_pollRest h
  exact decide_eq_true hn

theorem live_of_mem_watchRest {needed n : Nat} {last : Word} {p : Pending} (hle : n ≤ needed)
    (h : p ∈ watchRest needed n last) : p.live = true := by
  obtain ⟨rfl, hne⟩ := mem_watchRest h
  exact decide_eq_true (Nat.lt_of_le_of_ne hle hne)

/-- An operation puts at most the write half of a MOD in progress. -/
theorem exec_foreground (h : exec i s = .next t) :
    ∃ l : List Pending, (∀ p ∈ l, p.live = true) ∧ t.foreground = l ++ s.foreground := by
  obtain ⟨r, -, rfl⟩ | ⟨r, v, -, rfl⟩ | ⟨r, f, -, rfl⟩ | ⟨-, rfl⟩ | ⟨-, rfl⟩ | ⟨-, rfl⟩ | ⟨-, -, -, rfl⟩ |
    ⟨-, -, rfl⟩ | ⟨-, rfl⟩ := exec_next_cases h
  · exact ⟨[], by simp, busRead_foreground s r⟩
  · exact ⟨[], by simp, busWrite_foreground s r v⟩
  · exact ⟨[.write r (f.eval (s.view r))], by simp [Pending.live], modifyRead_foreground s r f⟩
  all_goals exact ⟨[], by simp, by simp⟩

/-- A turn of the foreground with something live puts in progress only what is live: a loop that reaches its
count is dropped in that turn. -/
theorem runPending_foreground {p : Pending} (hp : p.live = true) (s : State) :
    ∃ l : List Pending, (∀ q ∈ l, q.live = true) ∧ (runPending p s).foreground = l ++ s.foreground := by
  cases p with
  | read r => exact ⟨[], by simp, busRead_foreground s r⟩
  | write r v => exact ⟨[], by simp, busWrite_foreground s r v⟩
  | modify r f =>
    exact ⟨[.write r (f.eval (s.view r))], by simp [Pending.live], modifyRead_foreground s r f⟩
  | readTicks => exact ⟨[], by simp, rfl⟩
  | poll n =>
    have hn : 0 < n := of_decide_eq_true hp
    rw [runPending, pollTurn_of_ne hn.ne']
    exact ⟨_, fun q => live_of_mem_pollRest, rfl⟩
  | sample needed => exact ⟨_, fun q => live_of_mem_watchRest (Nat.zero_le needed), rfl⟩
  | watch needed n last =>
    have hn : n < needed := of_decide_eq_true hp
    rw [runPending, watchTurn_of_ne hn.ne]
    refine ⟨_, fun q hq => ?_, rfl⟩
    split at hq
    · exact live_of_mem_watchRest hn hq
    · exact live_of_mem_watchRest hn.le hq

/-- The one access of a call is no loop. -/
theorem live_of_callAccess {c : Call} {p : Pending} (h : callAccess c = some p) : p.live = true := by
  cases c with
  | new | init ms | delayMs ms => cases h
  | _ => cases h; rfl

/-- A driver sequence puts only what is live in progress: its accesses, or a loop with something left to
observe. -/
theorem startCall_foreground {c : Call} (h : startCall c s = .next t) :
    ∃ l : List Pending, (∀ p ∈ l, p.live = true) ∧ t.foreground = l ++ s.foreground := by
  obtain ⟨-, -, rfl⟩ | ⟨ms, r, -, -, rfl⟩ | ⟨ms, -, -, -, rfl⟩ | ⟨ms, -, -, -, rfl⟩ | ⟨p, hp, rfl⟩ :=
    startCall_next_cases h
  · exact ⟨[], by simp, rfl⟩
  · exact ⟨_, by simp [initSequence, Pending.live], rfl⟩
  · exact ⟨_, fun q => live_of_mem_pollRest, rfl⟩
  · exact ⟨[.sample (ms.toNat / s.period)], by simp [Pending.live], rfl⟩
  · exact ⟨[p], by simpa using live_of_callAccess hp, rfl⟩

/-- Only `init` changes the tick period, and its preconditions make it positive (R106). -/
theorem startCall_period_pos {c : Call} (hs : 0 < s.period) (h : startCall c s = .next t) : 0 < t.period := by
  obtain ⟨-, -, rfl⟩ | ⟨ms, r, -, hr, rfl⟩ | ⟨ms, -, -, -, rfl⟩ | ⟨ms, -, -, -, rfl⟩ | ⟨p, hp, rfl⟩ :=
    startCall_next_cases h
  · exact hs
  · obtain ⟨⟨hms, -⟩, -⟩ := (reloadVal_eq_some _ _ _).mp hr
    exact hms
  all_goals exact hs

/-! ### The invariant (R25) -/

/-- Live things put before a live foreground leave it live. -/
theorem live_append {l ps : List Pending} (hl : ∀ p ∈ l, p.live = true) (hps : ∀ p ∈ ps, p.live = true) :
    ∀ p ∈ l ++ ps, p.live = true :=
  List.forall_mem_append.mpr ⟨hl, hps⟩

theorem exec_inv (hs : s.Inv) (h : exec i s = .next t) : t.Inv := by
  obtain ⟨hfit, hperiod, hlive⟩ := inv_iff.mp hs
  obtain ⟨-, -, hp, -⟩ := exec_next_frame h
  obtain ⟨l, hl, hf⟩ := exec_foreground h
  exact inv_iff.mpr ⟨exec_countsFit hfit h, hp ▸ hperiod, hf ▸ live_append hl hlive⟩

theorem startCall_inv {c : Call} (hs : s.Inv) (h : startCall c s = .next t) : t.Inv := by
  obtain ⟨hfit, hperiod, hlive⟩ := inv_iff.mp hs
  obtain ⟨l, hl, hf⟩ := startCall_foreground h
  have hfit' : t.CountsFit := by
    obtain ⟨o, p, f, rfl⟩ := startCall_frame h
    exact hfit
  exact inv_iff.mpr ⟨hfit', startCall_period_pos hperiod h, hf ▸ live_append hl hlive⟩

/-- The turn of the first thing in progress, taken off the foreground, keeps the invariant. -/
theorem runPending_inv {p : Pending} {ps : List Pending} (hf : s.foreground = p :: ps) (hs : s.Inv)
    (rest : List Input) : (runPending p { s with foreground := ps, inputs := rest }).Inv := by
  obtain ⟨hfit, hperiod, hlive⟩ := inv_iff.mp hs
  obtain ⟨hp, hps⟩ := List.forall_mem_cons.mp (hf ▸ hlive)
  obtain ⟨-, -, -, -, hperiod', -⟩ := runPending_frame p { s with foreground := ps, inputs := rest }
  obtain ⟨l, hl, hf'⟩ := runPending_foreground hp { s with foreground := ps, inputs := rest }
  exact inv_iff.mpr ⟨runPending_countsFit (s := { s with foreground := ps, inputs := rest }) hfit p,
    hperiod.trans_eq hperiod'.symm, hf' ▸ live_append hl hps⟩

/-- Settles O3: by whose turn it is; the parts of the invariant are kept by operations, by the start of a driver
sequence and by a turn of the foreground. -/
theorem stepKeepsInvariant : Obligations.StepKeepsInvariant := by
  intro s t hs h
  obtain ⟨-, rfl⟩ | ⟨rest, -, rfl⟩ | ⟨b, rest, -, rfl⟩ | ⟨p, ps, rest, ht, rfl⟩ | ⟨c, rest, -, hc⟩ |
    ⟨i, rest, -, hi⟩ := step_next_cases h
  · exact hs
  · exact hs
  · exact hs
  · exact runPending_inv (turn_goOn_foreground ht) hs rest
  · exact startCall_inv (s := { s with inputs := rest }) hs hc
  · exact exec_inv (s := { s with inputs := rest }) hs hi

/-! ### Reset and the parameters (R11, R24, R130) -/

/-- After reset the counts are two truncated draws. -/
theorem reset_countsFit : State.reset.CountsFit := ⟨truncCnt_lt _ _, truncCnt_lt _ _⟩

/-- Settles O1: the values are those of the definition, the counts truncated draws. -/
theorem resetStateHasSpecValues : Obligations.ResetStateHasSpecValues :=
  ⟨rfl, rfl, rfl, rfl, rfl, rfl, reset_countsFit⟩

/-- Settles O2: the counts fit, the period is a successor, and nothing is in progress. -/
theorem resetSatisfiesInvariant : Obligations.ResetSatisfiesInvariant :=
  inv_iff.mpr ⟨reset_countsFit, Nat.succ_pos _, List.forall_mem_nil _⟩

/-- Settles O4: the values RELOAD and CURRENT take are the two next draws, truncated. -/
theorem resetOperation : Obligations.ResetOperation :=
  ⟨fun _ => ⟨_, _, _, rfl, truncCnt_lt _ _, truncCnt_lt _ _⟩, decode_encode .reset⟩

/-- Settles O5: no kind of step writes the parameters. -/
theorem parametersAreConstant : Obligations.ParametersAreConstant := by
  intro s t h
  obtain ⟨i, rest, -, hi⟩ | ⟨p, ps, rest, -, rfl⟩ | ⟨-, g, o, p, f, x, rfl⟩ := step_next_kinds h
  · obtain ⟨hcfg, -⟩ := exec_next_frame hi
    exact hcfg
  · obtain ⟨hcfg, -⟩ := runPending_frame p { s with foreground := ps, inputs := rest }
    exact hcfg
  · rfl

end Sys2Proof.Machine

/-! PROOFS. The encoding, the address map and the byte view (`20_memory.md`, `30_encoding.md`, O10 to O16,
O28, O29): the decoder inverts the encoder, and which words and bus accesses it refuses. -/

namespace Sys2Proof

/-! ### Operation words (R47, R51, R52) -/

/-- An operation word that decodes to an operation is made of that operation's own parts. -/
theorem eq_encode_of_decode {w : OpWord} {i : Instr} (h : decode w = .ok i) : w = encode i := by
  obtain ⟨hsel, hdata, hfn⟩ := decodeParts_eq_ok h
  rw [eq_mk_append w, encode, hsel, hdata, hfn]

/-- Settles O11: each direction is one of the two round trips. -/
theorem decodeAgreesWithEncode : Obligations.DecodeAgreesWithEncode :=
  fun _ i => ⟨eq_encode_of_decode, fun h => h ▸ decode_encode i⟩

theorem decodePlain_isOk_iff (d : Word) (f : Fn) (i : Instr) :
    (∃ j, decodePlain d f i = .ok j) ↔ d = 0 ∧ f = .arg := by
  unfold decodePlain
  split
  · simp_all
  · split <;> simp_all

theorem decodeWrite_isOk_iff (d : Word) (f : Fn) (k : Word → Instr) :
    (∃ j, decodeWrite d f k = .ok j) ↔ f = .arg := by
  unfold decodeWrite
  split <;> simp_all

theorem decodeModify_isOk_iff (d : Word) (f : Fn) (k : Fn → Instr) :
    (∃ j, decodeModify d f k = .ok j) ↔ d = 0 := by
  unfold decodeModify
  split <;> simp_all

/-- A selector of no row is refused: as misaligned if its kind is that of a bus access, as unknown otherwise
(R52 (1)). -/
theorem decodeParts_of_not_mem {sel : BitVec 8} (h : selectors.contains sel = false) (d : Word) (f : Fn) :
    decodeParts sel d f = .error (if selectorKind sel = 0 then .misaligned else .unknownSelector) := by
  unfold decodeParts
  split
  case h_19 => rfl
  all_goals cases h

/-- The word of every operation is well-formed. -/
theorem encode_wellFormed (i : Instr) : (encode i).wellFormed = true := by
  have h : Laws.WordForm.Statement i := by
    cases i with
    | rdCs => exact Laws.WordForm.rdCs
    | rdReload => exact Laws.WordForm.rdReload
    | rdCurrent => exact Laws.WordForm.rdCurrent
    | rdCalib => exact Laws.WordForm.rdCalib
    | wrCs d => exact Laws.WordForm.wrCs d
    | wrReload d => exact Laws.WordForm.wrReload d
    | wrCurrent d => exact Laws.WordForm.wrCurrent d
    | wrCalib d => exact Laws.WordForm.wrCalib d
    | modCs f => exact Laws.WordForm.modCs f
    | modReload f => exact Laws.WordForm.modReload f
    | modCurrent f => exact Laws.WordForm.modCurrent f
    | modCalib f => exact Laws.WordForm.modCalib f
    | rdTicks => exact Laws.WordForm.rdTicks
    | tickCore => exact Laws.WordForm.tickCore
    | tickRef => exact Laws.WordForm.tickRef
    | irqTake => exact Laws.WordForm.irqTake
    | irqSpur => exact Laws.WordForm.irqSpur
    | reset => exact Laws.WordForm.reset
  obtain ⟨hwf, -⟩ := h
  exact hwf

/-- In a row of the table, data needs a `WR` and a function needs a `MOD` (R47). -/
theorem decodeParts_isOk {sel : BitVec 8} {d : Word} {f : Fn} (hsel : selectors.contains sel = true)
    (hd : d = 0 ∨ selectorIsWrite sel = true) (hf : f = .arg ∨ selectorIsModify sel = true) :
    ∃ i, decodeParts sel d f = .ok i := by
  unfold decodeParts
  split
  case h_5 | h_6 | h_7 | h_8 =>
    exact (decodeWrite_isOk_iff d f _).mpr (hf.resolve_right (by decide))
  case h_9 | h_10 | h_11 | h_12 =>
    exact (decodeModify_isOk_iff d f _).mpr (hd.resolve_right (by decide))
  case h_19 =>
    simp only [selectors, List.contains_eq_mem, List.mem_append, List.mem_cons, List.not_mem_nil, or_false,
      decide_eq_true_eq] at hsel
    simp_all
  all_goals
    exact (decodePlain_isOk_iff d f _).mpr ⟨hd.resolve_right (by decide), hf.resolve_right (by decide)⟩

theorem decode_isOk_iff_wellFormed (w : OpWord) : (∃ i, decode w = .ok i) ↔ w.wellFormed = true := by
  constructor
  · rintro ⟨i, h⟩
    rw [eq_encode_of_decode h]
    exact encode_wellFormed i
  · intro h
    simp only [OpWord.wellFormed, Bool.and_eq_true, Bool.or_eq_true, beq_iff_eq] at h
    obtain ⟨⟨hsel, hd⟩, hf⟩ := h
    exact decodeParts_isOk hsel hd hf

/-- The kind of a word's selector is its top three bits. -/
theorem selectorKind_eq_zero_iff (w : OpWord) : selectorKind w.selector = 0 ↔ w.bits.toNat / 2 ^ 37 = 0 := by
  have h : (selectorKind w.selector).toNat = w.bits.toNat / 2 ^ 37 := by
    simp only [selectorKind, OpWord.selector, BitVec.extractLsb'_toNat, Nat.shiftRight_eq_div_pow]
    omega
  rw [← h]
  exact BitVec.toNat_inj.symm

/-- Settles O12: the words that decode are those of operations, which are well-formed; and a selector of no
row falls through the table. -/
theorem decodeRefusesIllFormedWords : Obligations.DecodeRefusesIllFormedWords := by
  refine fun w => ⟨decode_isOk_iff_wellFormed w, fun h => ?_⟩
  simp only [decode, decodeParts_of_not_mem h, selectorKind_eq_zero_iff]

/-- Settles O13: five of the words are those of their operations, and the last two selectors are of no row. -/
theorem decodesTableWords : Obligations.DecodesTableWords :=
  ⟨decode_encode .rdCurrent, decode_encode (.wrCs 0xFFFFFFFF),
    decode_encode (.modReload (.add .arg (.lit 1))), decode_encode .rdTicks, decode_encode .tickRef,
    decodeParts_of_not_mem (sel := 0x20) rfl 0 .arg, decodeParts_of_not_mem (sel := 0x06) rfl 0 .arg⟩

/-! ### Bus accesses (R31, R32, R35, R36, R46) -/

/-- Settles O14: each access is the RD or WR of its register. -/
theorem busReachesFourRegisters : Obligations.BusReachesFourRegisters :=
  fun cfg d => ⟨decodeBus_rd cfg .cs, decodeBus_rd cfg .reload, decodeBus_rd cfg .current,
    decodeBus_rd cfg .calib, decodeBus_wr cfg .cs d, decodeBus_wr cfg .reload d, decodeBus_wr cfg .current d,
    decodeBus_wr cfg .calib d⟩

theorem inBlock_iff (cfg : Params) (a : Word) :
    inBlock cfg a = true ↔ cfg.timerBase.toNat ≤ a.toNat ∧ a.toNat ≤ cfg.timerBase.toNat + 15 := by
  simp [inBlock]

/-- In the block, an access of another size than a word is refused (R32). -/
theorem decodeBus_width {cfg : Params} {t : BusReq} (h : inBlock cfg t.addr = true) (h4 : t.size ≠ 4) :
    decodeBus cfg t = .error .width := by
  simp [decodeBus, h, h4]

/-- The selector of an offset that is no register's is in no row, and its kind is that of a bus access. -/
theorem busSelector_of_misaligned {off : BitVec 4} (h : off.toNat % 4 ≠ 0) (we : Bool) :
    selectors.contains (busSelector we off) = false ∧ selectorKind (busSelector we off) = 0 := by
  revert we off
  decide

/-- In the block, a word access between two registers is refused (R31). -/
theorem decodeBus_misaligned {cfg : Params} {t : BusReq} (h : inBlock cfg t.addr = true) (h4 : t.size = 4)
    (hoff : (t.addr.toNat - cfg.timerBase.toNat) % 4 ≠ 0) : decodeBus cfg t = .error .misaligned := by
  rw [← blockOffset_toNat cfg t.addr h] at hoff
  obtain ⟨hno, hkind⟩ := busSelector_of_misaligned hoff t.isWrite
  rw [decodeBus_inBlock cfg t h h4, decode_append, decodeParts_of_not_mem hno, if_pos hkind]

/-- At TICKS_ADDR, which lies outside the block, only a word read is an operation (R35, R72). -/
theorem decodeBus_ticksAddr {cfg : Params} {t : BusReq} (h : cfg.ticksAddr = some t.addr) :
    decodeBus cfg t =
      if t.size ≠ 4 then .error .width else if t.isWrite then .error .ticksWrite else .ok .rdTicks := by
  simp [decodeBus, inBlock_ticksAddr cfg t.addr h, h]

/-- An access outside the map is refused (R36). -/
theorem decodeBus_outside {cfg : Params} {t : BusReq} (h : ¬ inBlock cfg t.addr = true)
    (hticks : cfg.ticksAddr ≠ some t.addr) : decodeBus cfg t = .error .outsideBlock := by
  simp [decodeBus, h, hticks]

/-- Settles O15: by where the address lies; the block, TICKS_ADDR, or elsewhere. -/
theorem busRefusesOtherAccesses : Obligations.BusRefusesOtherAccesses := by
  refine fun cfg t => ⟨fun hlo hhi => ?_, fun hticks => ⟨fun h4 => ?_, fun h4 => ?_⟩, fun hout hticks => ?_⟩
  · have hin := (inBlock_iff cfg t.addr).mpr ⟨hlo, hhi⟩
    exact ⟨decodeBus_width hin, decodeBus_misaligned hin⟩
  · rw [decodeBus_ticksAddr hticks, if_pos h4]
  · rw [decodeBus_ticksAddr hticks, if_neg (not_not.mpr h4)]
  · exact decodeBus_outside (fun hin => by rw [inBlock_iff] at hin; omega) hticks

/-! ### The operand of a MOD (R47, R68) -/

/-- Word by word, an expression can be given any values. -/
theorem exists_fn_eval_below (f : Word → Word) (n : Nat) :
    ∃ e : Fn, ∀ v : Word, v.toNat < n → e.eval v = f v := by
  induction n with
  | zero => exact ⟨.arg, fun v hv => absurd hv (Nat.not_lt_zero _)⟩
  | succ n ih =>
    obtain ⟨e, he⟩ := ih
    refine ⟨.ifEq .arg (.lit (BitVec.ofNat 32 n)) (.lit (f (BitVec.ofNat 32 n))) e, fun v hv => ?_⟩
    by_cases hvn : v = BitVec.ofNat 32 n
    · simp [Fn.eval, hvn]
    · have hlt : v.toNat < n := by bv_omega
      simp [Fn.eval, hvn, he v hlt]

/-- Settles O16: every word is below `2^32`. -/
theorem everyFunctionIsAnOperand : Obligations.EveryFunctionIsAnOperand := by
  intro f
  obtain ⟨e, he⟩ := exists_fn_eval_below f (2 ^ 32)
  exact ⟨e, fun v => he v v.isLt⟩

namespace Machine

/-! ### The byte view (R30) -/

@[simp] theorem regOfIndex_index (r : Reg) : regOfIndex r.index = some r := by cases r <;> rfl

/-- Settles O10: the offset `4*i + k` has the quotient `i` and the remainder `k`. -/
theorem byteViewIsLittleEndian : Obligations.ByteViewIsLittleEndian := by
  intro s r k hk
  have hle : s.cfg.timerBase.toNat ≤ s.cfg.timerBase.toNat + 4 * r.index + k := by omega
  have hoff : s.cfg.timerBase.toNat + 4 * r.index + k - s.cfg.timerBase.toNat = 4 * r.index + k := by omega
  have hreg : (4 * r.index + k) / 4 = r.index := by omega
  have hbyte : (4 * r.index + k) % 4 = k := by omega
  simp only [byteAt, if_pos hle, hoff, hreg, hbyte, regOfIndex_index, Option.map_some, BitVec.extractLsb',
    Nat.shiftRight_eq_div_pow]

/-! ### The reads of constants: calibration and the tick counter (R71, R72) -/

/-- Settles O28: the read half reads a parameter, and the write half drops its data. -/
theorem modifyCalibration : Obligations.ModifyCalibration :=
  fun s f rest => ⟨exec_md .calib f s,
    step_resume_write (s := { s with foreground := .write .calib (f.eval s.cfg.calibValue) :: s.foreground })
      rfl rest, decode_md .calib f⟩

/-- Settles O29: the read writes `rdata` alone, and at TICKS_ADDR the direction decides. -/
theorem readTickCounter : Obligations.ReadTickCounter :=
  fun _ => ⟨rfl, decode_encode .rdTicks, fun a ha => ⟨decodeBus_ticksAddr (t := .read a 4) ha,
    fun d => decodeBus_ticksAddr (t := .write a 4 d) ha⟩⟩

end Machine
end Sys2Proof

/-! PROOFS. Steps, ties and outputs (`20_memory.md`, `30_encoding.md`, `60_exceptions.md`, O17 to O21, O60): a
step by whose turn it is, and what it does to GIE and to the output `has_wrapped`. -/

namespace Sys2Proof.Machine

variable {s t : State} {i j : Instr} {rest : List Input}

/-! ### A step by whose turn it is (R9, R38) -/

theorem step_of_run (h : s.turn = .run i rest) : step s = exec i { s with inputs := rest } := by
  simp only [step, h]

theorem step_of_goOn {p : Pending} {ps : List Pending} (h : s.turn = .goOn p ps rest) :
    step s = .next (runPending p { s with foreground := ps, inputs := rest }) := by
  simp only [step, h]

/-- Settles O17: the word's turn is to run the operation, and a step runs it. -/
theorem stepRunsDecodedOperation : Obligations.StepRunsDecodedOperation := by
  intro s w i rest hx hd hready
  by_cases hi : i.agent = .foreground
  · exact step_of_run (turn_of_free hx hd (hready.resolve_left (not_not.mpr hi)))
  · exact step_of_run (turn_of_event hx hd hi)

/-- With nothing in progress, a bus transaction has the turn of what it decodes to. -/
theorem turn_of_bus_ok {b : BusReq} (hx : s.inputs = .bus b :: rest) (hd : decodeBus s.cfg b = .ok i)
    (hf : s.foreground = []) : s.turn = .run i rest := by
  simp [State.turn, hx, busTurn, hd, foregroundTurn, hf]

theorem turn_of_bus_error {b : BusReq} {e : DecodeError} (hx : s.inputs = .bus b :: rest)
    (hd : decodeBus s.cfg b = .error e) (hf : s.foreground = []) : s.turn = .refuse e := by
  simp [State.turn, hx, busTurn, hd, foregroundTurn, hf]

/-- Settles O18: by what the transaction decodes to. -/
theorem stepRunsBusTransaction : Obligations.StepRunsBusTransaction := by
  intro s b rest hx hf
  cases hd : decodeBus s.cfg b with
  | ok i => exact step_of_run (turn_of_bus_ok hx hd hf)
  | error e => simp only [step, turn_of_bus_error hx hd hf]

/-- While something is in progress, a foreground action that is next waits for it. -/
theorem foregroundTurn_of_cons {p : Pending} {ps : List Pending} (hf : s.foreground = p :: ps)
    (ready : Turn) :
    foregroundTurn s ready = .goOn p ps s.inputs := by
  simp only [foregroundTurn, hf]

/-- The foreground actions among the inputs are its operations, the bus transactions and the calls. -/
theorem turn_eq_foregroundTurn {x : Input} (hx : s.inputs = x :: rest)
    (hkind : (∃ w i, x = .op w ∧ decode w = .ok i ∧ i.agent = .foreground) ∨ (∃ b, x = .bus b) ∨
      ∃ c, x = .call c) :
    ∃ ready, s.turn = foregroundTurn s ready := by
  obtain ⟨w, i, rfl, hd, hi⟩ | ⟨b, rfl⟩ | ⟨c, rfl⟩ := hkind
  · exact ⟨.run i rest, by simp [State.turn, hx, operationTurn, hd, hi]⟩
  · exact ⟨_, by rw [State.turn, hx]; rfl⟩
  · exact ⟨_, by rw [State.turn, hx]⟩

/-- Settles O19: each of the three kinds of foreground action waits. -/
theorem foregroundKeepsProgramOrder : Obligations.ForegroundKeepsProgramOrder := by
  intro s p ps x rest hf hx hkind
  obtain ⟨ready, hturn⟩ := turn_eq_foregroundTurn hx hkind
  exact step_of_goOn (hturn.trans (foregroundTurn_of_cons hf ready))

/-! ### Two operations in one cycle (R39, R116) -/

/-- A wrap event and a read of control_status are ordered read first, whichever is given first (D13). -/
theorem tieOrder_wrap_read (hi : i.isPulse = true) (hj : j.readsCs = true) :
    tieOrder (encode i) (encode j) = (encode j, encode i) ∧
      tieOrder (encode j) (encode i) = (encode j, encode i) := by
  have hjp : j.isPulse = false := by
    cases j with
    | rdCs | modCs f => rfl
    | _ => cases hj
  simp only [tieOrder, decode_encode, hi, hj, hjp, Bool.false_and, Bool.and_self, if_true,
    Bool.false_eq_true, if_false, and_self]

/-- Of two operations in one cycle the first in their order has its turn, and the second stays the next input.
-/
theorem turn_of_coincide {a b : OpWord} (hx : s.inputs = .coincide a b :: rest)
    (hd : decode (tieOrder a b).1 = .ok i) (hf : s.foreground = []) :
    s.turn = .run i (.op (tieOrder a b).2 :: rest) := by
  simp [State.turn, hx, operationTurn, hd, foregroundTurn, hf]

/-- The pulse of a wrap event reloads the count and sets the flag. -/
theorem exec_of_isWrapEvent (h : isWrapEvent i s = true) : exec i s = .next s.wrapped := by
  simp only [isWrapEvent, Bool.and_eq_true, beq_iff_eq] at h
  obtain ⟨⟨hi, he⟩, hc⟩ := h
  rw [exec_of_isSelectedPulse hi, countStep_of_zero he (congrArg BitVec.toNat hc)]

/-- An event whose turn comes next runs at once in the second of two steps. -/
theorem runSteps_two_of_event {u : State} (h : step s = .next { t with inputs := .op (encode i) :: rest })
    (hi : i.agent ≠ .foreground) (hu : exec i { t with inputs := rest } = .next u) :
    runSteps 2 s = .next u := by
  have hstep : step { t with inputs := .op (encode i) :: rest } = .next u :=
    (step_of_run (turn_of_event rfl (decode_encode i) hi)).trans hu
  simp only [runSteps, h, hstep]

/-- An operation that reads control_status does so whatever inputs wait; it leaves a wrap event that was due,
returns the flag as it was, and puts in progress at most the write half of a MOD. -/
theorem exec_readsCs (hj : j.readsCs = true) (s : State) :
    ∃ t, (∀ x, exec j { s with inputs := x } = .next { t with inputs := x }) ∧
      (∀ k, isWrapEvent k t = isWrapEvent k s) ∧ wrapDet t.rdata = s.countflag ∧ t.reload = s.reload ∧
      (∀ f, j = .modCs f → t.foreground = .write .cs (f.eval t.rdata) :: s.foreground) := by
  cases j with
  | rdCs =>
    refine ⟨busRead .cs s, fun _ => rfl, fun k => by cases k <;> rfl, wrapDet_packCs _ _ _ _, rfl, nofun⟩
  | modCs f =>
    refine ⟨modifyRead .cs f s, fun _ => rfl, fun k => by cases k <;> rfl, wrapDet_packCs _ _ _ _, rfl, ?_⟩
    rintro f ⟨⟩
    rfl
  | _ => cases hj

/-- Settles O20: the order of the tie, then the read in the first step and the wrap event in the second. -/
theorem simultaneousReadComesBeforeWrap : Obligations.SimultaneousReadComesBeforeWrap := by
  intro s i j rest hwrap hj hf hx
  have hi : i.isPulse = true ∧ i.agent ≠ .foreground := by
    obtain rfl | rfl := isPulse_of_isWrapEvent hwrap <;> decide
  obtain ⟨hpulse, hevent⟩ := hi
  obtain ⟨hij, hji⟩ := tieOrder_wrap_read hpulse hj
  obtain ⟨t, hread, hkeep, hflag, hreload, hwrite⟩ := exec_readsCs hj s
  have hturn : s.turn = .run j (.op (encode i) :: rest) := by
    obtain hx | hx := hx
    · have h := turn_of_coincide (i := j) hx (by rw [hij]; exact decode_encode j) hf
      rwa [hij] at h
    · have h := turn_of_coincide (i := j) hx (by rw [hji]; exact decode_encode j) hf
      rwa [hji] at h
  have hfirst : step s = .next { t with inputs := .op (encode i) :: rest } :=
    (step_of_run hturn).trans (hread _)
  have hsecond : exec i { t with inputs := rest } = .next (State.wrapped { t with inputs := rest }) :=
    exec_of_isWrapEvent (by rw [isWrapEvent_setInputs, hkeep, hwrap])
  refine ⟨_, _, hread rest, hsecond, runSteps_two_of_event hfirst hevent hsecond, hflag, rfl, hreload, rfl,
    fun f hjf => ?_⟩
  have hfg := hwrite f hjf
  rw [hf] at hfg
  exact hfg

/-! ### The global interrupt enable (R114) -/

/-- A step keeps GIE unless it is the environment's change of it. -/
theorem step_gie (h : step s = .next t) :
    t.gie = s.gie ∨ ∃ b, s.inputs = .gie b :: t.inputs ∧ t.gie = b := by
  obtain ⟨-, rfl⟩ | ⟨rest, -, rfl⟩ | ⟨b, rest, ht, rfl⟩ | ⟨p, ps, rest, -, rfl⟩ | ⟨c, rest, -, hc⟩ |
    ⟨i, rest, -, hi⟩ := step_next_cases h
  · exact .inl rfl
  · exact .inl rfl
  · exact .inr ⟨b, turn_gie_inputs ht, rfl⟩
  · obtain ⟨-, -, -, hgie, -⟩ := runPending_frame p { s with foreground := ps, inputs := rest }
    exact .inl hgie
  · obtain ⟨o, p, f, rfl⟩ := startCall_frame hc
    exact .inl rfl
  · obtain ⟨-, hgie, -⟩ := exec_next_frame hi
    exact .inl hgie

/-- Settles O21: a step that changes GIE is the environment's change, which is a turn of its own. -/
theorem gieChangesOnlyFromOutside : Obligations.GieChangesOnlyFromOutside := by
  refine ⟨fun s t h hne => ?_, fun s b rest hx => ?_⟩
  · obtain heq | ⟨b, hx, rfl⟩ := step_gie h
    · exact absurd heq hne
    · exact ⟨t.inputs, hx⟩
  · have hturn : s.turn = .gie b rest := by rw [State.turn, hx]
    simp only [step, hturn]
    rfl

/-! ### The output `has_wrapped` (R55) -/

theorem busRead_hasWrapped (r : Reg) (s : State) :
    (busRead r s).hasWrapped = if r = .cs then s.countflag else s.hasWrapped := by
  by_cases hr : r = .cs
  · subst hr
    exact busRead_cs_hasWrapped s
  · rw [busRead_hasWrapped_of_ne s r hr, if_neg hr]

/-- The output `has_wrapped` after an operation: the flag as it was, if the operation read control_status; kept
otherwise. -/
theorem exec_hasWrapped (h : exec i s = .next t) :
    t.hasWrapped = if i.readsCs then s.countflag else s.hasWrapped := by
  obtain ⟨r, rfl, rfl⟩ | ⟨r, v, rfl, rfl⟩ | ⟨r, f, rfl, rfl⟩ | ⟨rfl, rfl⟩ | ⟨rfl, rfl⟩ | ⟨rfl, rfl⟩ |
    ⟨rfl, -, -, rfl⟩ | ⟨rfl, -, rfl⟩ | ⟨rfl, rfl⟩ := exec_next_cases h
  · simp [busRead_hasWrapped]
  · simp
  · simp [busRead_hasWrapped]
  all_goals simp [Instr.readsCs]

theorem runPending_hasWrapped (p : Pending) (s : State) :
    (runPending p s).hasWrapped = if p.readsCs then s.countflag else s.hasWrapped := by
  cases p with
  | read r => simp [runPending, Pending.readsCs, busRead_hasWrapped]
  | write r v => simp [runPending, Pending.readsCs]
  | modify r f => simp [runPending, Pending.readsCs, busRead_hasWrapped]
  | readTicks => simp [runPending, Pending.readsCs]
  | poll n =>
    by_cases hn : n = 0
    · simp [runPending, Pending.readsCs, hn, pollTurn]
    · simp [runPending, Pending.readsCs, hn, pollTurn_of_ne]
  | sample needed => simp [runPending, Pending.readsCs, sampleTurn_eq]
  | watch needed n last =>
    by_cases hn : n = needed
    · simp [runPending, Pending.readsCs, hn, watchTurn]
    · simp [runPending, Pending.readsCs, watchTurn_of_ne hn]

/-- The output `has_wrapped` after a step: the flag as it was, if the step read control_status; kept
otherwise. -/
theorem step_hasWrapped (h : step s = .next t) :
    t.hasWrapped = if readsCsNext s then s.countflag else s.hasWrapped := by
  obtain ⟨i, rest, ht, hi⟩ | ⟨p, ps, rest, ht, rfl⟩ | ⟨⟨-, hc, -⟩, g, o, p, f, x, rfl⟩ := step_next_kinds h
  · rw [readsCsNext_of_run ht]
    exact exec_hasWrapped (s := { s with inputs := rest }) hi
  · obtain ⟨hc, -⟩ := nextIs_of_goOn ht
    rw [runPending_hasWrapped, hc]
  · simp [hc]

/-- Settles O60: the equation for `has_wrapped`, and the view that the read returns; the other two outputs are
fields. -/
theorem outputPorts : Obligations.OutputPorts := by
  refine fun s t h => ⟨fun hc => ?_, fun hc => ?_, rfl, rfl⟩
  · have hout : hasWrappedOut t = s.countflag := (step_hasWrapped h).trans (if_pos hc)
    refine ⟨hout, hout.trans ?_⟩
    rw [step_rdata_of_readsCsNext hc h]
    exact (wrapDet_packCs _ _ _ _).symm
  · exact (step_hasWrapped h).trans (if_neg (by simp [hc]))

end Sys2Proof.Machine

/-! PROOFS. Runs of operations: the bound of the count, what gates counting, the consumption law of the flag and
what moves the Tick Counter (`41_counter_events.md`, `42_tick_update.md`, O36, O37, O39, O43, O45). -/

namespace Sys2Proof.Machine

variable {s t : State} {i : Instr} {l : List Instr}

/-! ### Runs of pulses (R80, R81) -/

/-- The two pulses are the two clocks' (R76, R77). -/
theorem exec_pulse (hi : i = .tickCore ∨ i = .tickRef) : ∃ c, ∀ s, exec i s = .next (clockPulse c s) := by
  obtain rfl | rfl := hi
  · exact ⟨true, fun _ => rfl⟩
  · exact ⟨false, fun _ => rfl⟩

/-- Settles O36: a pulse reloads or decrements, and leaves RELOAD, so the bound goes back along the run. -/
theorem countStaysBounded : Obligations.CountStaysBounded := by
  intro l s t hl h
  refine execAll_induction
    (P := fun s t => t.current.toNat ≤ max s.current.toNat s.reload.toNat ∧ t.reload = s.reload)
    (fun i => i = .tickCore ∨ i = .tickRef) (fun _ => ⟨Nat.le_max_left _ _, rfl⟩) ?_ hl h
  intro i s u t hi hu ⟨hbound, hreload⟩
  obtain ⟨c, hpulse⟩ := exec_pulse hi
  obtain rfl : clockPulse c s = u := by simpa [hpulse] using hu
  rw [clockPulse_reload] at hbound hreload
  exact ⟨hbound.trans (max_le (clockPulse_current_le c s) (Nat.le_max_right _ _)), hreload⟩

/-- Pulses of a stopped counter complete and change nothing (R81). -/
theorem execAll_pulses_of_stopped (hl : ∀ i ∈ l, i = .tickCore ∨ i = .tickRef) (he : s.enable = false) :
    execAll l s = .next s := by
  induction l with
  | nil => rfl
  | cons i l ih =>
    obtain ⟨hi, hl⟩ := List.forall_mem_cons.mp hl
    obtain ⟨c, hpulse⟩ := exec_pulse hi
    simp only [execAll, hpulse, clockPulse_of_stopped he]
    exact ih hl

/-- TICKINT affects neither the count nor the flag (R81). -/
theorem clockPulse_setTickint (c b : Bool) (s : State) :
    (clockPulse c { s with tickint := b }).current = (clockPulse c s).current ∧
      (clockPulse c { s with tickint := b }).countflag = (clockPulse c s).countflag := by
  refine ⟨?_, by simp only [clockPulse_countflag]⟩
  simp only [clockPulse_eq, State.wrapped]
  split
  · split
    · split <;> rfl
    · rfl
  · rfl

/-- Settles O37: pulses of a stopped counter, the two fields that TICKINT leaves, and the equations for the flag
and the request. -/
theorem enableAloneGatesCounting : Obligations.EnableAloneGatesCounting := by
  refine ⟨fun l s hl he => execAll_pulses_of_stopped hl he, fun i s b hi => ?_, fun s t h => ?_, fun s t h => ?_⟩
  · obtain ⟨c, hpulse⟩ := exec_pulse hi
    exact ⟨_, _, hpulse s, hpulse _, clockPulse_setTickint c b s⟩
  · simp [exec_countflag h, Instr.readsCs]
  · simp [exec_irqPending h, isWrapEvent, isSelectedPulse]

/-! ### The consumption law (R82) -/

/-- A clear flag stays clear through a run without wrap events: nothing else sets it (R15). -/
theorem execAll_countflag_of_no_wrap (hs : s.countflag = false) (hw : wrapCount l s = 0)
    (h : execAll l s = .next t) : t.countflag = false := by
  induction l generalizing s with
  | nil => cases h; exact hs
  | cons i l ih =>
    obtain ⟨u, hi, hu⟩ := execAll_cons_next h
    have hnone := (wrapCount_cons_pos (l := l) hi).not.mp hw.not_gt
    rw [not_or, Nat.not_lt, Nat.le_zero] at hnone
    obtain ⟨hwi, hwl⟩ := hnone
    exact ih (by simp [exec_countflag hi, hs, hwi]) hwl hu

/-- RD.CS returns the flag in bit 16. -/
theorem exec_rdCs_wrapDet (s : State) : ∃ u, exec .rdCs s = .next u ∧ wrapDet u.rdata = s.countflag :=
  ⟨busRead .cs s, rfl, wrapDet_packCs _ _ _ _⟩

/-- Settles O39: what the run leaves in the flag, by induction over it, is what the read returns. -/
theorem consumptionLaw : Obligations.ConsumptionLaw := by
  intro l s t h
  obtain ⟨u, hread, hbit⟩ := exec_rdCs_wrapDet t
  refine ⟨fun hs hw => ⟨u, hread, ?_⟩, fun hw hl => ⟨u, hread, ?_⟩⟩
  · rw [hbit, execAll_countflag_of_no_wrap hs hw h]
  · rw [hbit, (execAll_countflag hl h).mpr (.inr hw)]

/-! ### What moves the Tick Counter (R88, R91) -/

/-- Settles O43: the counter after a run is its first value plus the handler runs as a word, and words add
modulo `2^32`. -/
theorem wraparoundLaw : Obligations.WraparoundLaw := by
  intro l s t hw hr h
  rw [execAll_ticks hw hr h, BitVec.toNat_add, BitVec.toNat_ofNat, Nat.add_mod_mod]

/-- IRQ.TAKE has a step only where its enabling condition holds (R86). -/
theorem exec_irqTake_enabled (h : exec .irqTake s = .next t) : s.irqPending = true ∧ s.gie = true := by
  by_contra hoff
  rw [exec_irqTake, if_neg hoff] at h
  cases h

/-- An operation that changes the Tick Counter is RESET or a delivery that meets every condition (R90, R86). -/
theorem exec_ticks_ne (h : exec i s = .next t) (hne : t.ticks ≠ s.ticks) :
    i = .reset ∨ (i = .irqTake ∧ s.irqPending = true ∧ s.gie = true ∧ s.cfg.handlerWired = true) := by
  rw [exec_ticks h] at hne
  split at hne
  next hr => exact .inl hr
  next =>
    split at hne
    next hrun =>
      obtain ⟨rfl, hw⟩ := hrun
      obtain ⟨hirq, hgie⟩ := exec_irqTake_enabled h
      exact .inr ⟨rfl, hirq, hgie, hw⟩
    next => exact absurd rfl hne

/-- Only WR.CS and RESET change the control bits (R61, R130). -/
theorem exec_control (hr : i ≠ .reset) (hw : ∀ d, i ≠ .wrCs d) (h : exec i s = .next t) :
    t.enable = s.enable ∧ t.tickint = s.tickint ∧ t.clksource = s.clksource := by
  obtain ⟨r, -, rfl⟩ | ⟨r, v, rfl, rfl⟩ | ⟨r, f, -, rfl⟩ | ⟨-, rfl⟩ | ⟨-, rfl⟩ | ⟨-, rfl⟩ | ⟨-, -, -, rfl⟩ |
    ⟨-, -, rfl⟩ | ⟨rfl, -⟩ := exec_next_cases h
  · simp
  · cases r with
    | cs => exact absurd rfl (hw v)
    | reload | current | calib => exact ⟨rfl, rfl, rfl⟩
  · simp
  · simp
  · simp
  · simp
  · simp
  · exact ⟨rfl, rfl, rfl⟩
  · exact absurd rfl hr

/-- No wrap event taken with TICKINT = 1 can come of these operations: one of the conditions of R75 is unmet. -/
def NoRequest (l : List Instr) (s : State) : Prop :=
  s.tickint = false ∨ s.enable = false ∨ ∀ i ∈ l, isSelectedPulse i s = false

/-- Where a condition is unmet, the first operation makes no request. -/
theorem NoRequest.head (h : NoRequest (i :: l) s) : (isWrapEvent i s && s.tickint) = false := by
  obtain hti | he | hsel := h
  · simp [hti]
  · simp [isWrapEvent, he]
  · simp [isWrapEvent, hsel i (List.mem_cons_self ..)]

/-- What is unmet stays unmet while the control bits stay. -/
theorem NoRequest.tail (h : NoRequest (i :: l) s)
    (hc : t.enable = s.enable ∧ t.tickint = s.tickint ∧ t.clksource = s.clksource) : NoRequest l t := by
  obtain ⟨he, hti, hclk⟩ := hc
  refine h.imp (hti ▸ ·) (Or.imp (he ▸ ·) fun hsel j hj => ?_)
  rw [isSelectedPulse_of_clksource hclk]
  exact hsel j (List.mem_cons_of_mem i hj)

/-- With no request pending and none made, no handler runs and the Tick Counter never moves (R91). -/
theorem execAll_of_noRequest (hs : s.irqPending = false) (hno : NoRequest l s)
    (hl : ∀ i ∈ l, i ≠ .reset ∧ ∀ d, i ≠ .wrCs d) (h : execAll l s = .next t) :
    t.ticks = s.ticks ∧ t.irqPending = false ∧ Instr.irqTake ∉ l := by
  induction l generalizing s with
  | nil => cases h; exact ⟨rfl, hs, List.not_mem_nil⟩
  | cons i l ih =>
    obtain ⟨u, hi, hu⟩ := execAll_cons_next h
    obtain ⟨⟨hr, hw⟩, hl⟩ := List.forall_mem_cons.mp hl
    have htake : i ≠ .irqTake := by
      rintro rfl
      obtain ⟨hirq, -⟩ := exec_irqTake_enabled hi
      simp [hs] at hirq
    have hirq : u.irqPending = false := by simp [exec_irqPending hi, hno.head, hs]
    have hticks : u.ticks = s.ticks := by simp [exec_ticks hi, hr, htake]
    obtain ⟨hticks', hirq', htake'⟩ := ih hirq (hno.tail (exec_control hr hw hi)) hl hu
    exact ⟨hticks'.trans hticks, hirq', by simp [htake.symm, htake']⟩

/-- Settles O45: one operation by the equation for the counter, a run by induction over it. -/
theorem tickNeedsEveryCondition : Obligations.TickNeedsEveryCondition :=
  ⟨fun _ _ _ => exec_ticks_ne, fun _ _ _ hs hno hl h => execAll_of_noRequest hs hno hl h⟩

end Sys2Proof.Machine

/-! PROOFS. The driver sequences turn by turn (`43_driver_sequences.md`, O47, O48, O50, O51, O52, O58): the
start of a call, then one access of what is in progress in each turn. -/

namespace Sys2Proof.Machine

variable {s t : State} {c : Call} {p : Pending} {ps : List Pending} {rest : List Input} {k : Nat}

/-! ### Runs of turns of the foreground -/

/-- The foreground's turn, given by the input or because none is left. -/
theorem turn_of_resume_or_nil (hx : s.inputs = .resume :: rest ∨ (s.inputs = [] ∧ rest = []))
    (hf : s.foreground = p :: ps) : s.turn = .goOn p ps rest := by
  obtain hx | ⟨hx, rfl⟩ := hx
  · exact turn_of_resume hx hf
  · exact turn_of_nil hx hf

theorem runSteps_succ_of_next (h : step s = .next t) : runSteps (k + 1) s = runSteps k t := by
  simp only [runSteps, h]

/-- With no input left, each turn takes the first thing in progress. -/
theorem runSteps_succ_goOn (hx : s.inputs = []) (hf : s.foreground = p :: ps) :
    runSteps (k + 1) s = runSteps k (runPending p { s with foreground := ps, inputs := [] }) :=
  runSteps_succ_of_next (step_of_goOn (turn_of_nil hx hf))

/-- With nothing in progress, a call starts its sequence. -/
theorem runSteps_succ_call (hx : s.inputs = .call c :: rest) (hf : s.foreground = [])
    (h : startCall c { s with inputs := rest } = .next t) : runSteps (k + 1) s = runSteps k t :=
  runSteps_succ_of_next ((step_of_call hx hf).trans h)

/-! ### new (R94) -/

/-- Settles O47: the call starts in its step, and `new` tests the binding. -/
theorem newBindsOnce : Obligations.NewBindsOnce := by
  intro s rest hf hx
  rw [step_of_call hx hf]
  exact ⟨fun ho => by simp [startCall, startNew, ho], fun ho => by simp [startCall, startNew, ho]⟩

/-! ### Calls of one access (R96 to R102) -/

theorem startCall_access (h : callAccess c = some p) :
    startCall c s = .next { s with foreground := p :: s.foreground } := by
  cases c with
  | new | init ms | delayMs ms => cases h
  | _ => cases h; rfl

/-- A call of one access takes a turn to start, and leaves the access in progress. -/
theorem runSteps_succ_access_call (hf : s.foreground = []) (h : callAccess c = some p) :
    runSteps (k + 1) { s with inputs := [.call c] } = runSteps k { s with inputs := [], foreground := [p] } := by
  refine runSteps_succ_call rfl hf ?_
  rw [startCall_access h, hf]

/-- With an access that leaves nothing in progress, the call is over in the turn of the access. -/
theorem runSteps_two_access_call (hf : s.foreground = []) (h : callAccess c = some p) :
    runSteps 2 { s with inputs := [.call c] } = .next (runPending p { s with inputs := [] }) := by
  rw [runSteps_succ_access_call hf h, runSteps_succ_goOn rfl rfl, ← hf]
  rfl

/-- Settles O50: each call is its one access, of control_status, RELOAD or the tick counter. -/
theorem oneAccessCalls : Obligations.OneAccessCalls := by
  intro s v hf
  have hflag (u : State) : hasWrappedOut (busRead .cs u) = u.countflag := busRead_cs_hasWrapped u
  refine ⟨⟨busRead .cs { s with inputs := [] }, _, runSteps_two_access_call (p := .read .cs) hf rfl,
      busRead_cs_eq _, hflag _,
      runSteps_two_access_call (p := .read .cs) (hf ▸ busRead_foreground _ .cs) rfl, hflag _⟩, ?_, ?_⟩
  · rw [runSteps_two_access_call hf rfl, runPending, busWrite_reload_eq]
  · rw [runSteps_two_access_call hf rfl]
    rfl

/-! ### The four bit operations (R98 to R101) -/

section
variable (cf cs ti en : Bool)

theorem packCs_or_one : packCs cf cs ti en ||| 0x00000001#32 = packCs cf cs ti true := by
  revert cf cs ti en; decide
theorem packCs_or_two : packCs cf cs ti en ||| 0x00000002#32 = packCs cf cs true en := by
  revert cf cs ti en; decide
theorem packCs_and_not_one : packCs cf cs ti en &&& 0xFFFFFFFE#32 = packCs cf cs ti false := by
  revert cf cs ti en; decide
theorem packCs_and_not_two : packCs cf cs ti en &&& 0xFFFFFFFD#32 = packCs cf cs false en := by
  revert cf cs ti en; decide

end

/-- Both halves of a MOD of control_status with nothing between them. -/
def State.modifiedCs (f : Fn) (s : State) : State := busWrite .cs (f.eval (s.view .cs)) (busRead .cs s)

/-- A MOD of control_status reads, clearing the flag, and writes three bits of `f` of the value read. -/
theorem State.modifiedCs_eq (f : Fn) (s : State) : s.modifiedCs f = { s with
    rdata := s.view .cs
    hasWrapped := s.countflag
    countflag := false
    enable := dataEnable (f.eval (s.view .cs))
    tickint := dataTickint (f.eval (s.view .cs))
    clksource := dataClksource (f.eval (s.view .cs)) } := by
  rw [State.modifiedCs, busRead_cs_eq]
  rfl

/-- With no input left, a MOD that is alone in progress takes two turns. -/
theorem runSteps_two_modify_cs {f : Fn} (hx : s.inputs = []) (hf : s.foreground = [.modify .cs f]) :
    runSteps 2 s = .next (State.modifiedCs f { s with foreground := [] }) := by
  rw [runSteps_succ_goOn hx hf, runSteps_succ_goOn rfl rfl, ← hx]
  rfl

/-- A call that is one MOD of control_status takes three turns. -/
theorem runSteps_three_modify_call {f : Fn} (hf : s.foreground = []) (h : callAccess c = some (.modify .cs f)) :
    runSteps 3 { s with inputs := [.call c] } = .next (State.modifiedCs f { s with inputs := [] }) := by
  rw [runSteps_succ_access_call hf h, runSteps_two_modify_cs rfl rfl, ← hf]

/-- Settles O51: each operation's function changes one of the three bits of the value read. -/
theorem bitOperations : Obligations.BitOperations := by
  intro s hf
  refine ⟨s.view .cs, ?_, ?_, ?_, ?_, ?_⟩
  · rw [view_cs, BitVec.toNat_ofNat]
    have hcf := s.countflag.toNat_le
    have hcs := s.clksource.toNat_le
    have hti := s.tickint.toNat_le
    have hen := s.enable.toNat_le
    omega
  all_goals
    rw [runSteps_three_modify_call hf rfl, State.modifiedCs_eq]
    simp [State.view, Fn.eval, packCs_or_one, packCs_or_two, packCs_and_not_one, packCs_and_not_two]

/-! ### init (R95, R106) -/

/-- The data of the two writes of control_status in `init` (D28). -/
theorem initData_eq_packCs (irq : Bool) :
    (1 * 4 + (if irq then 1 else 0) * 2 + 0 : Word) = packCs false true irq false := by
  revert irq; decide

/-- The function of the MOD of `init`: it sets ENABLE, and TICKINT where VARIANT asks. -/
theorem initFn_eval_packCs (cf cs en irq : Bool) :
    ((Fn.arg.or (.lit 0x1)).or (.lit ((if irq then 1 else 0) * 2))).eval (packCs cf cs irq en) =
      packCs cf cs irq true := by
  revert cf cs en irq; decide

/-- The accesses of `init` with nothing between them leave the counter running from `r` on the core clock. -/
theorem runSteps_initSequence {irq : Bool} {r : Word} (hx : s.inputs = [])
    (hf : s.foreground = initSequence irq r) :
    runSteps 5 s = .next { s with
      enable := true
      tickint := irq
      clksource := true
      countflag := false
      reload := truncCnt s.cfg r
      current := truncCnt s.cfg r
      rdata := packCs s.countflag true irq false
      hasWrapped := s.countflag
      foreground := [] } := by
  rw [initSequence, initData_eq_packCs] at hf
  rw [runSteps_succ_goOn hx hf, runSteps_succ_goOn rfl rfl, runSteps_succ_goOn rfl rfl,
    runSteps_two_modify_cs rfl rfl, State.modifiedCs_eq]
  simp only [runPending, busWrite, State.view, dataEnable_packCs, dataTickint_packCs, dataClksource_packCs,
    initFn_eval_packCs, hx]

/-- The value that the MOD of `init` reads, word by word. -/
theorem packCs_init_words (cf irq : Bool) : packCs cf true irq false =
    if cf = true then (if irq = true then 0x00010006 else 0x00010004)
    else (if irq = true then 0x00000006 else 0x00000004) := by
  revert cf irq; decide

/-- Under the preconditions the reload value is a word that fits its CNT_BITS bits (R106). -/
theorem exists_reload_word {cfg : Params} {ms : Nat} (hms : 1 ≤ ms) (hhz : 1000 ≤ cfg.fCoreHz)
    (hfit : ms * (cfg.fCoreHz / 1000) ≤ 2 ^ cfg.cntBits) :
    ∃ r : Word, r.toNat = ms * (cfg.fCoreHz / 1000) - 1 ∧ reloadVal cfg ms = some r.toNat ∧
      truncCnt cfg r = r := by
  have hpos := one_le_mul_ticksPerMs hms hhz
  have hbits : 2 ^ cfg.cntBits ≤ 2 ^ 32 := Nat.pow_le_pow_right (by decide) cfg.cntBits_ok.2
  obtain ⟨r, hr⟩ : ∃ r : Word, r.toNat = ms * (cfg.fCoreHz / 1000) - 1 :=
    ⟨BitVec.ofNat 32 _, Nat.mod_eq_of_lt (by omega)⟩
  exact ⟨r, hr, (reloadVal_eq_some cfg ms _).mpr ⟨⟨hms, hhz, hfit⟩, hr⟩, truncCnt_of_lt cfg r (by omega)⟩

/-- `init` puts its accesses in progress, with the reload value as a word. -/
theorem startCall_init {ms r : Word} (hval : reloadVal s.cfg ms.toNat = some r.toNat) :
    startCall (.init ms) s = .next { s with
      period := ms.toNat
      foreground := initSequence (s.cfg.variant == .interrupt) r ++ s.foreground } := by
  simp [startCall, startInit, hval]

/-- Settles O48: the call computes the reload value, which fits, and the five turns after it are the accesses.
-/
theorem initProgramsTheTimer : Obligations.InitProgramsTheTimer := by
  intro s ms hf hx hms hhz hfit
  obtain ⟨r, hr, hval, htrunc⟩ := exists_reload_word hms hhz hfit
  refine ⟨r, hr, ?_⟩
  have hseq : initSequence (s.cfg.variant == .interrupt) r ++ s.foreground =
      initSequence (s.cfg.variant == .interrupt) r := by rw [hf, List.append_nil]
  rw [runSteps_succ_call hx hf (startCall_init hval), runSteps_initSequence rfl hseq]
  simp [htrunc, packCs_init_words, hf]
  rfl

/-! ### The turns of a delay (R103, R104) -/

theorem pollRest_append (n : Nat) (ps : List Pending) :
    pollRest n ++ ps = if n = 0 then ps else .poll n :: ps := by
  unfold pollRest
  split <;> rfl

theorem watchRest_append (needed n : Nat) (last : Word) (ps : List Pending) :
    watchRest needed n last ++ ps = if n = needed then ps else .watch needed n last :: ps := by
  unfold watchRest
  split <;> rfl

/-- What is left of a polling delay after a turn of it: it is over if the turn observed its last flag. -/
theorem pollRest_after_turn {n : Nat} (hn : n ≠ 0) (cf : Bool) (ps : List Pending) :
    pollRest (if cf then n - 1 else n) ++ ps =
      if cf = true then (if n = 1 then ps else .poll (n - 1) :: ps) else .poll n :: ps := by
  cases cf with
  | false => simp [pollRest_append, hn]
  | true =>
    have hone : n - 1 = 0 ↔ n = 1 := by omega
    simp [pollRest_append, hone]

/-- What is left of an interrupt-driven delay after a turn of it: it is over if the turn observed the last
change. -/
theorem watchRest_after_turn {needed n : Nat} (hn : n ≠ needed) (last seen : Word) (ps : List Pending) :
    (if seen ≠ last then watchRest needed (n + 1) seen else watchRest needed n last) ++ ps =
      if seen = last then .watch needed n last :: ps
      else if n + 1 = needed then ps else .watch needed (n + 1) seen :: ps := by
  by_cases hseen : seen = last
  · simp [watchRest_append, hseen, hn]
  · simp [watchRest_append, hseen]

/-- The turn of the first sample. -/
theorem step_of_sample {needed : Nat} (hx : s.inputs = .resume :: rest ∨ (s.inputs = [] ∧ rest = []))
    (hf : s.foreground = .sample needed :: ps) :
    step s = .next { s with
      rdata := s.ticks
      inputs := rest
      foreground := if needed = 0 then ps else .watch needed 0 s.ticks :: ps } := by
  rw [step_of_goOn (turn_of_resume_or_nil hx hf), runPending, sampleTurn_eq, watchRest_append]
  simp only [eq_comm]

/-- Settles O58: the turn goes on with the loop, and what is left of it is dropped at its count. -/
theorem delayTurns : Obligations.DelayTurns := by
  intro s ps rest hx
  refine ⟨fun n hn hf => ?_, fun needed hf => step_of_sample hx hf, fun needed n last hn hf => ?_⟩
  · rw [step_of_goOn (turn_of_resume_or_nil hx hf), runPending, pollTurn_of_ne hn, pollRest_after_turn hn]
    rfl
  · rw [step_of_goOn (turn_of_resume_or_nil hx hf), runPending, watchTurn_of_ne hn, watchRest_after_turn hn]

/-! ### The start of a delay (R103, R104, R140) -/

section
variable {ms : Word} (hx : s.inputs = .call (.delayMs ms) :: rest) (hf : s.foreground = [])
include hx hf

theorem step_of_delay_zero_period (hp : s.period = 0) : step s = .refused .zeroPeriod := by
  simp [step_of_call hx hf, startCall, startDelay, hp]

theorem step_of_delay_polling (hp : 0 < s.period) (hv : s.cfg.variant = .polling) :
    step s = .next { s with inputs := rest, foreground := pollRest (ms.toNat / s.period) } := by
  simp [step_of_call hx hf, startCall, startDelay, hp.ne', hv, hf]

theorem step_of_delay_interrupt (hp : 0 < s.period) (hv : s.cfg.variant = .interrupt) :
    step s = .next { s with inputs := rest, foreground := [.sample (ms.toNat / s.period)] } := by
  simp [step_of_call hx hf, startCall, startDelay, hp.ne', hv, hf]

end

/-- Settles O52: the call divides by the period, and the interrupt-driven delay's first sample is the second
turn. -/
theorem delayRoundsDown : Obligations.DelayRoundsDown := by
  intro s ms rest hf hx
  refine ⟨step_of_delay_zero_period hx hf, fun hp => ?_, fun hp hv hrest => ?_⟩
  · cases hv : s.cfg.variant with
    | polling => exact step_of_delay_polling hx hf hp hv
    | interrupt => exact step_of_delay_interrupt hx hf hp hv
  · have hnext : rest = .resume :: rest.tail ∨ (rest = [] ∧ rest.tail = []) := by
      obtain rfl | hhead := hrest
      · exact .inr ⟨rfl, rfl⟩
      · obtain ⟨tail, rfl⟩ := List.head?_eq_some_iff.mp hhead
        exact .inl rfl
    rw [runSteps_succ_of_next (step_of_delay_interrupt hx hf hp hv),
      runSteps_succ_of_next (step_of_sample hnext rfl)]
    rfl

end Sys2Proof.Machine

/-! PROOFS. The delays beside the environment (`43_driver_sequences.md`, `70_reset_and_hazards.md`, O53 to
O57, O59): what a step can do while the environment alone acts, what it makes of a loop in progress, and
inductions over runs of steps. -/

namespace Sys2Proof.Machine

variable {s t u : State} {n needed k : Nat} {last : Word}

/-! ### Runs of steps -/

/-- What every step keeps, a run keeps. -/
theorem runSteps_invariant {P : State → Prop} (hstep : ∀ s t, P s → step s = .next t → P t) (hs : P s)
    (h : runSteps k s = .next t) : P t := by
  induction k generalizing s with
  | zero => cases h; exact hs
  | succ k ih =>
    obtain ⟨u, hu, ht⟩ := runSteps_succ_next h
    exact ih (hstep s u hs hu) ht

/-- Where every step completes and keeps what makes it complete, every run completes. -/
theorem runSteps_completes {P : State → Prop} (hstep : ∀ s, P s → ∃ t, step s = .next t ∧ P t) (hs : P s)
    (k : Nat) : ∃ t, runSteps k s = .next t ∧ P t := by
  induction k generalizing s with
  | zero => exact ⟨s, rfl, hs⟩
  | succ k ih =>
    obtain ⟨u, hu, hpu⟩ := hstep s hs
    rw [runSteps_succ_of_next hu]
    exact ih hpu

/-- What is counted along a run is counted at its first step and along the rest. -/
theorem countAlong_succ_of_next (p : State → Bool) (h : step s = .next u) :
    countAlong p (k + 1) s = (if p s = true then 1 else 0) + countAlong p k u := by
  simp only [countAlong, h]

/-! ### Steps beside which the environment alone acts (R9) -/

/-- The next step is neither a turn of what is in progress nor an operation. -/
def quietNext (s : State) : Bool :=
  match s.turn with
  | .goOn _ _ _ => false
  | .run _ _ => false
  | _ => true

/-- A quiet step is no observation, no wrap event, no RESET and no handler run. -/
theorem nextIs_of_quiet (h : quietNext s = true) :
    observesWrap s = false ∧ observesChange s = false ∧ wrapsNext s = false ∧ resetsNext s = false ∧
      runsHandler s = false := by
  cases ht : s.turn with
  | goOn p ps rest => simp [quietNext, ht] at h
  | run i rest => simp [quietNext, ht] at h
  | _ => simp [observesWrap, observesChange, wrapsNext, resetsNext, runsHandler, ht]

/-- What a step can do there: a turn of what is in progress, an event, or nothing but a change of GIE. -/
theorem step_environment_cases (hx : ∀ x ∈ s.inputs, x.ofEnvironment = true) (h : step s = .next t) :
    (∃ p ps rest, s.turn = .goOn p ps rest ∧ s.foreground = p :: ps ∧ rest ⊆ s.inputs ∧
      t = runPending p { s with foreground := ps, inputs := rest }) ∨
    (∃ i rest, s.turn = .run i rest ∧ s.inputs = .op (encode i) :: rest ∧ i.agent ≠ .foreground ∧
      exec i { s with inputs := rest } = .next t) ∨
    (quietNext s = true ∧ ∃ g rest, rest ⊆ s.inputs ∧ t = { s with gie := g, inputs := rest }) := by
  obtain ⟨ht, -⟩ | ⟨rest, ht, hin, -⟩ | ⟨b, rest, ht, hin⟩ | ⟨p, ps, rest, ht, hf, hin⟩ |
    ⟨i, w, rest, ht, hin, hd, hi⟩ := turn_of_environment hx
  · refine .inr (.inr ⟨by simp [quietNext, ht], s.gie, s.inputs, List.Subset.refl _, ?_⟩)
    have hst : s = t := by simpa [step, ht] using h
    exact hst.symm
  · refine .inr (.inr ⟨by simp [quietNext, ht], s.gie, rest, by simp [hin], ?_⟩)
    simpa [step, ht, eq_comm] using h
  · refine .inr (.inr ⟨by simp [quietNext, ht], b, rest, by simp [hin], ?_⟩)
    simpa [step, ht, setGie, eq_comm] using h
  · have hsub : rest ⊆ s.inputs := by
      obtain hin | ⟨-, rfl⟩ := hin
      · simp [hin]
      · exact List.nil_subset _
    exact .inl ⟨p, ps, rest, ht, hf, hsub, by simpa [step_of_goOn ht, eq_comm] using h⟩
  · exact .inr (.inl ⟨i, rest, ht, by rw [hin, eq_encode_of_decode hd], hi, by rwa [step_of_run ht] at h⟩)

/-- There a step consumes inputs and adds none. -/
theorem step_environment_inputs (hx : ∀ x ∈ s.inputs, x.ofEnvironment = true) (h : step s = .next t) :
    t.inputs ⊆ s.inputs := by
  obtain ⟨p, ps, rest, -, -, hsub, rfl⟩ | ⟨i, rest, -, hin, -, hi⟩ | ⟨-, g, rest, hsub, rfl⟩ :=
    step_environment_cases hx h
  · obtain ⟨-, -, -, -, -, -, hin, -⟩ := runPending_frame p { s with foreground := ps, inputs := rest }
    rwa [hin]
  · obtain ⟨-, -, -, -, hin'⟩ := exec_next_frame hi
    rw [hin', hin]
    exact List.subset_cons_self _ _
  · exact hsub

/-- There what is in progress changes only in its own turn, and a step that is no such turn observes nothing. -/
theorem step_environment_foreground (hx : ∀ x ∈ s.inputs, x.ofEnvironment = true) (h : step s = .next t) :
    (∃ p ps rest, s.turn = .goOn p ps rest ∧ s.foreground = p :: ps ∧
      t = runPending p { s with foreground := ps, inputs := rest }) ∨
    (t.foreground = s.foreground ∧ observesWrap s = false ∧ observesChange s = false) := by
  obtain ⟨p, ps, rest, ht, hf, -, rfl⟩ | ⟨i, rest, ht, -, hi, hexec⟩ | ⟨hq, g, rest, -, rfl⟩ :=
    step_environment_cases hx h
  · exact .inl ⟨p, ps, rest, ht, hf, rfl⟩
  · obtain ⟨hf, -⟩ := exec_event_frame hi hexec
    exact .inr ⟨hf, by simp [observesWrap, ht], by simp [observesChange, ht]⟩
  · obtain ⟨hw, hc, -⟩ := nextIs_of_quiet hq
    exact .inr ⟨rfl, hw, hc⟩

/-! ### The polling delay (R103) -/

theorem pollRest_eq_cons {p : Pending} {ps : List Pending} (h : pollRest n = p :: ps) :
    n ≠ 0 ∧ p = .poll n ∧ ps = [] := by
  unfold pollRest at h
  split at h
  · cases h
  · cases h
    exact ⟨by assumption, rfl, rfl⟩

theorem observesWrap_of_goOn {ps : List Pending} {rest : List Input} (h : s.turn = .goOn (.poll n) ps rest) :
    observesWrap s = s.countflag := by
  simp only [observesWrap, h]

/-- A step takes one from the countdown of a polling delay exactly if it is an observation. -/
theorem step_poll (hx : ∀ x ∈ s.inputs, x.ofEnvironment = true) (hf : s.foreground = pollRest n)
    (h : step s = .next t) :
    ∃ m, m + (if observesWrap s = true then 1 else 0) = n ∧ t.foreground = pollRest m := by
  obtain ⟨p, ps, rest, ht, hfg, rfl⟩ | ⟨hkeep, hobs, -⟩ := step_environment_foreground hx h
  · obtain ⟨hn, rfl, rfl⟩ := pollRest_eq_cons (hf.symm.trans hfg)
    rw [observesWrap_of_goOn ht, runPending, pollTurn_of_ne hn]
    refine ⟨if s.countflag then n - 1 else n, ?_, List.append_nil _⟩
    split <;> omega
  · exact ⟨n, by simp [hobs], hkeep.trans hf⟩

/-- Along a run the countdown of a polling delay falls by the observations. -/
theorem runSteps_poll (hx : ∀ x ∈ s.inputs, x.ofEnvironment = true) (hf : s.foreground = pollRest n)
    (h : runSteps k s = .next t) :
    ∃ m, m + countAlong observesWrap k s = n ∧ t.foreground = pollRest m := by
  induction k generalizing s n with
  | zero => cases h; exact ⟨n, rfl, hf⟩
  | succ k ih =>
    obtain ⟨u, hu, ht⟩ := runSteps_succ_next h
    obtain ⟨m, hm, hfu⟩ := step_poll hx hf hu
    obtain ⟨m', hm', hft⟩ := ih (fun x hxu => hx x (step_environment_inputs hx hu hxu)) hfu ht
    refine ⟨m', ?_, hft⟩
    rw [countAlong_succ_of_next observesWrap hu]
    omega

/-- Settles O53: the countdown that is left and the observations add up to the countdown at the start. -/
theorem pollingDelayCountsObservations : Obligations.PollingDelayCountsObservations := by
  intro k n s t hx hf h
  obtain ⟨m, hm, hft⟩ := runSteps_poll hx hf h
  exact ⟨m, by omega, hft, by omega⟩

/-! ### The interrupt-driven delay (R104) -/

theorem watchRest_eq_cons {p : Pending} {ps : List Pending} (h : watchRest needed n last = p :: ps) :
    n ≠ needed ∧ p = .watch needed n last ∧ ps = [] := by
  unfold watchRest at h
  split at h
  · cases h
  · cases h
    exact ⟨by assumption, rfl, rfl⟩

theorem watchRest_eq_nil_iff : watchRest needed n last = [] ↔ n = needed := by
  simp [watchRest]

theorem observesChange_of_goOn {ps : List Pending} {rest : List Input} (hn : n ≠ needed)
    (h : s.turn = .goOn (.watch needed n last) ps rest) : observesChange s = decide (s.ticks ≠ last) := by
  simp [observesChange, h, hn]

/-- A step is the delay's read of the counter, which counts a change and replaces the value last seen, or it
leaves the delay as it is. -/
theorem step_watch_cases (hx : ∀ x ∈ s.inputs, x.ofEnvironment = true)
    (hf : s.foreground = watchRest needed n last) (h : step s = .next t) :
    (n ≠ needed ∧ t.ticks = s.ticks ∧
      ((s.ticks ≠ last ∧ observesChange s = true ∧ t.foreground = watchRest needed (n + 1) s.ticks) ∨
       (s.ticks = last ∧ observesChange s = false ∧ t.foreground = watchRest needed n last))) ∨
    (observesChange s = false ∧ t.foreground = watchRest needed n last) := by
  obtain ⟨p, ps, rest, ht, hfg, rfl⟩ | ⟨hkeep, -, hobs⟩ := step_environment_foreground hx h
  · obtain ⟨hn, rfl, rfl⟩ := watchRest_eq_cons (hf.symm.trans hfg)
    rw [observesChange_of_goOn hn ht, runPending, watchTurn_of_ne hn]
    refine .inl ⟨hn, rfl, ?_⟩
    by_cases hc : s.ticks = last
    · exact .inr ⟨hc, by simp [hc], by simp [hc]⟩
    · exact .inl ⟨hc, by simp [hc], by simp [hc]⟩
  · exact .inr ⟨hobs, hkeep.trans hf⟩

/-- Along a run the count of an interrupt-driven delay grows by the changes it observes. -/
theorem runSteps_watch (hx : ∀ x ∈ s.inputs, x.ofEnvironment = true) (hle : n ≤ needed)
    (hf : s.foreground = watchRest needed n last) (h : runSteps k s = .next t) :
    ∃ m seen, n + countAlong observesChange k s = m ∧ m ≤ needed ∧ t.foreground = watchRest needed m seen := by
  induction k generalizing s n last with
  | zero => cases h; exact ⟨n, last, rfl, hle, hf⟩
  | succ k ih =>
    obtain ⟨u, hu, ht⟩ := runSteps_succ_next h
    have hxu : ∀ x ∈ u.inputs, x.ofEnvironment = true := fun x hxu => hx x (step_environment_inputs hx hu hxu)
    rw [countAlong_succ_of_next observesChange hu]
    obtain ⟨hn, -, ⟨-, hobs, hfu⟩ | ⟨-, hobs, hfu⟩⟩ | ⟨hobs, hfu⟩ := step_watch_cases hx hf hu
    · obtain ⟨m, seen, hm, hmle, hft⟩ := ih hxu (by omega) hfu ht
      exact ⟨m, seen, by simp only [hobs, if_true]; omega, hmle, hft⟩
    · simpa [hobs] using ih hxu hle hfu ht
    · simpa [hobs] using ih hxu hle hfu ht

/-- Settles O59: the count at the start and the observed changes add up to the count reached. -/
theorem interruptDelayCountsChanges : Obligations.InterruptDelayCountsChanges := by
  intro k needed n last s t hx hle hf h
  obtain ⟨m, seen, hm, hmle, hft⟩ := runSteps_watch hx hle hf h
  exact ⟨m, seen, by omega, hmle, hft, by omega⟩

/-! ### The Tick Counter along a run without RESET (R88, R90) -/

theorem ofEnvironment_of_noReset (hx : ∀ x ∈ s.inputs, x.noReset = true) :
    ∀ x ∈ s.inputs, x.ofEnvironment = true := by
  intro x hs
  have h := hx x hs
  rw [Input.noReset, Bool.and_eq_true] at h
  obtain ⟨henv, -⟩ := h
  exact henv

/-- Among the environment's inputs without RESET no step resets the block. -/
theorem resetsNext_of_noReset (hx : ∀ x ∈ s.inputs, x.noReset = true) (h : step s = .next t) :
    resetsNext s = false := by
  obtain ⟨p, ps, rest, ht, -⟩ | ⟨i, rest, ht, hin, -⟩ | ⟨hq, -⟩ :=
    step_environment_cases (ofEnvironment_of_noReset hx) h
  · simp [resetsNext, ht]
  · have hi := hx (.op (encode i)) (by simp [hin])
    have hne : i ≠ .reset := by
      rintro rfl
      simp [Input.noReset] at hi
    simp [resetsNext_of_run ht, hne]
  · obtain ⟨-, -, -, hr, -⟩ := nextIs_of_quiet hq
    exact hr

/-- There a step moves the Tick Counter only by a run of the registered handler. -/
theorem step_ticks_of_noReset (hx : ∀ x ∈ s.inputs, x.noReset = true) (h : step s = .next t) :
    t.ticks = if runsHandler s = true ∧ s.cfg.handlerWired = true then s.ticks + 1 else s.ticks := by
  simp [step_ticks h, resetsNext_of_noReset hx h]

/-- There the inputs that are left are of the same kind. -/
theorem noReset_of_step (hx : ∀ x ∈ s.inputs, x.noReset = true) (h : step s = .next t) :
    ∀ x ∈ t.inputs, x.noReset = true :=
  fun x hxt => hx x (step_environment_inputs (ofEnvironment_of_noReset hx) h hxt)

/-- With the handler registered, the Tick Counter advances by the handler runs of the run. -/
theorem runSteps_ticks (hx : ∀ x ∈ s.inputs, x.noReset = true) (hw : s.cfg.handlerWired = true)
    (h : runSteps k s = .next t) : t.ticks = s.ticks + BitVec.ofNat 32 (countAlong runsHandler k s) := by
  induction k generalizing s with
  | zero => cases h; exact (BitVec.add_zero _).symm
  | succ k ih =>
    obtain ⟨u, hu, ht⟩ := runSteps_succ_next h
    have hwu : u.cfg.handlerWired = true := by rw [parametersAreConstant s u hu, hw]
    rw [ih (noReset_of_step hx hu) hwu ht, step_ticks_of_noReset hx hu, countAlong_succ_of_next runsHandler hu]
    by_cases hh : runsHandler s = true
    · simp only [hh, hw, and_self, if_true]
      bv_omega
    · simp [hh]

/-! ### The interrupt-driven delay never returns early (R104, C3) -/

/-- A change of the counter that the delay has not yet seen. -/
def unseenChange (last : Word) (s : State) : Nat := if s.ticks ≠ last then 1 else 0

/-- A step that is no turn of the delay makes a change unseen only by a handler run. -/
theorem unseenChange_step (hx : ∀ x ∈ s.inputs, x.noReset = true) (h : step s = .next t) :
    unseenChange last t ≤ unseenChange last s + if runsHandler s = true then 1 else 0 := by
  by_cases hh : runsHandler s = true
  · have hle : unseenChange last t ≤ 1 := by
      unfold unseenChange
      split <;> omega
    rw [if_pos hh]
    omega
  · have hticks : t.ticks = s.ticks := by simp [step_ticks_of_noReset hx h, hh]
    simp [unseenChange, hticks]

/-- A delay that has returned needed no more than its count, a change it had not yet seen, and the handler
runs since: each change it counts is one that a handler run made, and it counts none twice. -/
theorem needed_le_of_watch_over (hx : ∀ x ∈ s.inputs, x.noReset = true)
    (hf : s.foreground = watchRest needed n last) (h : runSteps k s = .next t) (hover : t.foreground = []) :
    needed ≤ n + unseenChange last s + countAlong runsHandler k s := by
  induction k generalizing s n last with
  | zero =>
    cases h
    have hn := watchRest_eq_nil_iff.mp (hf.symm.trans hover)
    omega
  | succ k ih =>
    obtain ⟨u, hu, ht⟩ := runSteps_succ_next h
    have hxu := noReset_of_step hx hu
    have hstep := unseenChange_step (last := last) hx hu
    rw [countAlong_succ_of_next runsHandler hu]
    obtain ⟨-, hticks, ⟨hne, -, hfu⟩ | ⟨-, -, hfu⟩⟩ | ⟨-, hfu⟩ :=
      step_watch_cases (ofEnvironment_of_noReset hx) hf hu
    · have hrest := ih hxu hfu ht
      have hseen : unseenChange s.ticks u = 0 := by simp [unseenChange, hticks]
      have hcounted : unseenChange last s = 1 := by simp [unseenChange, hne]
      omega
    · have hrest := ih hxu hfu ht
      omega
    · have hrest := ih hxu hfu ht
      omega

/-- From just before its first sample, a delay that has returned needed no more than the handler runs since. -/
theorem needed_le_of_sample_over (hx : ∀ x ∈ s.inputs, x.noReset = true) (hf : s.foreground = [.sample needed])
    (h : runSteps k s = .next t) (hover : t.foreground = []) : needed ≤ countAlong runsHandler k s := by
  induction k generalizing s with
  | zero =>
    cases h
    rw [hf] at hover
    cases hover
  | succ k ih =>
    obtain ⟨u, hu, ht⟩ := runSteps_succ_next h
    have hxu := noReset_of_step hx hu
    rw [countAlong_succ_of_next runsHandler hu]
    obtain ⟨p, ps, rest, hturn, hfg, rfl⟩ | ⟨hkeep, -⟩ :=
      step_environment_foreground (ofEnvironment_of_noReset hx) hu
    · cases hf.symm.trans hfg
      have hrest := needed_le_of_watch_over (n := 0) (last := s.ticks) hxu (List.append_nil _) ht hover
      have hseen : unseenChange s.ticks
          (runPending (.sample needed) { s with foreground := [], inputs := rest }) = 0 := by
        simp [unseenChange, runPending, sampleTurn_eq]
      omega
    · have hrest := ih hxu (hkeep.trans hf) ht
      omega

/-- Settles O54: from either start the handler runs pay for every change counted, and they are what moves the
counter. -/
theorem interruptDelayNeverReturnsEarly : Obligations.InterruptDelayNeverReturnsEarly := by
  intro k needed s t hx hf h hover
  refine ⟨?_, fun hw => ?_⟩
  · obtain hsample | hwatch := hf
    · exact needed_le_of_sample_over hx hsample h hover
    · have hle := needed_le_of_watch_over (n := 0) (last := s.ticks) hx hwatch h hover
      simpa [unseenChange] using hle
  · rw [runSteps_ticks hx hw h, BitVec.toNat_add, BitVec.toNat_ofNat, Nat.add_mod_mod]

/-! ### Runs in which no wrap event can come (R75, R137) -/

/-- No pulse among the inputs can be a wrap event: the counter is stopped or its clock gives none. -/
def CannotWrap (s : State) : Prop :=
  s.enable = false ∨ ∀ i, Input.op (encode i) ∈ s.inputs → isSelectedPulse i s = false

theorem CannotWrap.wrapsNext (hs : CannotWrap s) (hx : ∀ x ∈ s.inputs, x.ofEnvironment = true)
    (h : step s = .next t) : wrapsNext s = false := by
  obtain ⟨p, ps, rest, ht, -⟩ | ⟨i, rest, ht, hin, -⟩ | ⟨hq, -⟩ := step_environment_cases hx h
  · simp [Machine.wrapsNext, ht]
  · rw [wrapsNext_of_run ht]
    obtain he | hsel := hs
    · simp [isWrapEvent, he]
    · simp [isWrapEvent, hsel i (by simp [hin])]
  · obtain ⟨-, -, hw, -⟩ := nextIs_of_quiet hq
    exact hw

/-- What cannot wrap still cannot while the control bits stay and no input is added. -/
theorem CannotWrap.mono (hs : CannotWrap s) (hc : SameControl s t) (hin : t.inputs ⊆ s.inputs) : CannotWrap t := by
  obtain ⟨he, -, hclk, -⟩ := hc
  refine hs.imp he.trans fun hsel i hi => ?_
  rw [isSelectedPulse_of_clksource hclk]
  exact hsel i (hin hi)

/-- A turn of a delay leaves the control bits and RELOAD. -/
theorem runPending_poll_sameControl (hn : n ≠ 0) (s : State) : SameControl s (runPending (.poll n) s) := by
  rw [runPending, pollTurn_of_ne hn]
  simp [SameControl]

theorem runPending_watch_sameControl (hn : n ≠ needed) (last : Word) (s : State) :
    SameControl s (runPending (.watch needed n last) s) := by
  rw [runPending, watchTurn_of_ne hn]
  exact ⟨rfl, rfl, rfl, rfl⟩

/-- Beside the environment without RESET, a step leaves the control bits if the turns of what is in progress
do. -/
theorem step_sameControl (hx : ∀ x ∈ s.inputs, x.noReset = true)
    (hturn : ∀ p ps u, s.foreground = p :: ps → SameControl u (runPending p u)) (h : step s = .next t) :
    SameControl s t := by
  obtain ⟨p, ps, rest, -, hf, -, rfl⟩ | ⟨i, rest, ht, hin, hi, hexec⟩ | ⟨-, g, rest, -, rfl⟩ :=
    step_environment_cases (ofEnvironment_of_noReset hx) h
  · exact hturn p ps { s with foreground := ps, inputs := rest } hf
  · have hr : i ≠ .reset := by simpa [resetsNext_of_run ht] using resetsNext_of_noReset hx h
    exact exec_event_sameControl (s := { s with inputs := rest }) hi hr hexec
  · exact ⟨rfl, rfl, rfl, rfl⟩

theorem step_poll_sameControl (hx : ∀ x ∈ s.inputs, x.noReset = true) (hf : s.foreground = pollRest n)
    (h : step s = .next t) : SameControl s t := by
  refine step_sameControl hx (fun p ps u hfg => ?_) h
  obtain ⟨hn, rfl, -⟩ := pollRest_eq_cons (hf.symm.trans hfg)
  exact runPending_poll_sameControl hn u

theorem step_watch_sameControl (hx : ∀ x ∈ s.inputs, x.noReset = true)
    (hf : s.foreground = watchRest needed n last) (h : step s = .next t) : SameControl s t := by
  refine step_sameControl hx (fun p ps u hfg => ?_) h
  obtain ⟨hn, rfl, -⟩ := watchRest_eq_cons (hf.symm.trans hfg)
  exact runPending_watch_sameControl hn last u

/-! ### Pulses and turns of the foreground alone (R137) -/

/-- The operation of an input that is a pulse or a turn of the foreground is a pulse. -/
theorem pulse_of_pulseOrResume {i : Instr} (h : (Input.op (encode i)).pulseOrResume = true) :
    i = .tickCore ∨ i = .tickRef := by
  have hinj {j : Instr} (hij : encode i = encode j) : i = j := by
    have hd := decode_encode i
    rw [hij, decode_encode] at hd
    cases hd
    rfl
  simp only [Input.pulseOrResume, Bool.or_eq_true, beq_iff_eq] at h
  exact h.imp hinj hinj

theorem Input.noReset_of_pulseOrResume {x : Input} (h : x.pulseOrResume = true) : x.noReset = true := by
  cases x with
  | op w =>
    simp only [Input.pulseOrResume, Bool.or_eq_true, beq_iff_eq] at h
    obtain rfl | rfl := h <;> decide
  | resume => rfl
  | bus | coincide | call | gie => cases h

section
variable (hx : ∀ x ∈ s.inputs, x.pulseOrResume = true)
include hx

theorem noReset_of_pulses : ∀ x ∈ s.inputs, x.noReset = true :=
  fun x hs => Input.noReset_of_pulseOrResume (hx x hs)

theorem ofEnvironment_of_pulses : ∀ x ∈ s.inputs, x.ofEnvironment = true :=
  ofEnvironment_of_noReset (noReset_of_pulses hx)

/-- Beside pulses alone every step has a next state: a pulse is never refused. -/
theorem step_completes_of_pulses : ∃ t, step s = .next t := by
  obtain ⟨ht, -⟩ | ⟨rest, ht, -⟩ | ⟨b, rest, ht, -⟩ | ⟨p, ps, rest, ht, -⟩ | ⟨i, w, rest, ht, hin, hd, -⟩ :=
    turn_of_environment (ofEnvironment_of_pulses hx)
  · exact ⟨_, by rw [step, ht]⟩
  · exact ⟨_, by rw [step, ht]⟩
  · exact ⟨_, by rw [step, ht]⟩
  · exact ⟨_, step_of_goOn ht⟩
  · have hi := hx (.op (encode i)) (by simp [hin, eq_encode_of_decode hd])
    obtain ⟨c, hpulse⟩ := exec_pulse (pulse_of_pulseOrResume hi)
    exact ⟨_, (step_of_run ht).trans (hpulse _)⟩

theorem pulses_of_step (h : step s = .next t) : ∀ x ∈ t.inputs, x.pulseOrResume = true :=
  fun x hxt => hx x (step_environment_inputs (ofEnvironment_of_pulses hx) h hxt)

/-- Among pulses there is no delivery. -/
theorem runsHandler_of_pulses (h : step s = .next t) : runsHandler s = false := by
  obtain ⟨p, ps, rest, ht, -⟩ | ⟨i, rest, ht, hin, -⟩ | ⟨hq, -⟩ :=
    step_environment_cases (ofEnvironment_of_pulses hx) h
  · obtain ⟨-, -, -, hh⟩ := nextIs_of_goOn ht
    exact hh
  · rw [runsHandler_of_run ht]
    obtain rfl | rfl := pulse_of_pulseOrResume (hx (.op (encode i)) (by simp [hin])) <;> rfl
  · obtain ⟨-, -, -, -, hh⟩ := nextIs_of_quiet hq
    exact hh

end

/-! ### The delays hang (R137) -/

/-- A polling delay that will never observe a flag. -/
def PollHangs (n : Nat) (s : State) : Prop :=
  (∀ x ∈ s.inputs, x.pulseOrResume = true) ∧ CannotWrap s ∧ s.countflag = false ∧ s.foreground = pollRest n

theorem observesWrap_of_countflag (h : s.countflag = false) : observesWrap s = false := by
  unfold observesWrap
  split
  · exact h
  · rfl

theorem PollHangs.step (hs : PollHangs n s) : ∃ t, step s = .next t ∧ PollHangs n t := by
  obtain ⟨hx, hno, hflag, hf⟩ := hs
  obtain ⟨t, h⟩ := step_completes_of_pulses hx
  have henv := ofEnvironment_of_pulses hx
  have hcontrol := step_poll_sameControl (noReset_of_pulses hx) hf h
  obtain ⟨m, hm, hft⟩ := step_poll henv hf h
  obtain rfl : m = n := by simpa [observesWrap_of_countflag hflag] using hm
  refine ⟨t, h, pulses_of_step hx h, hno.mono hcontrol (step_environment_inputs henv h), ?_, hft⟩
  simp [step_countflag h, hno.wrapsNext henv h, hflag]

/-- Settles O55: each step completes and leaves the delay with a clear flag and no wrap event to come. -/
theorem pollingDelayHangsWhenStopped : Obligations.PollingDelayHangsWhenStopped := by
  intro k n s hx hno hflag hn hf
  have hrest : pollRest n = [.poll n] := if_neg hn.ne'
  obtain ⟨t, ht, -, -, hflag', hft⟩ :=
    runSteps_completes (fun _ => PollHangs.step) ⟨hx, hno, hflag, hf.trans hrest.symm⟩ k
  exact ⟨t, ht, hft.trans hrest, hflag'⟩

/-- While the counter stands at the value last seen, a step leaves the interrupt-driven delay as it is. -/
theorem step_watch_of_seen (hx : ∀ x ∈ s.inputs, x.ofEnvironment = true)
    (hf : s.foreground = watchRest needed n s.ticks) (h : step s = .next t) :
    t.foreground = watchRest needed n s.ticks := by
  obtain ⟨-, -, ⟨hne, -⟩ | ⟨-, -, hft⟩⟩ | ⟨-, hft⟩ := step_watch_cases hx hf h
  · exact absurd rfl hne
  · exact hft
  · exact hft

/-- An interrupt-driven delay that has seen the counter as it stands, at `last`. -/
def WatchWaits (needed n : Nat) (last : Word) (s : State) : Prop :=
  s.foreground = watchRest needed n last ∧ s.ticks = last

/-- A step that leaves the counter leaves the delay waiting. -/
theorem WatchWaits.step (hs : WatchWaits needed n last s) (hx : ∀ x ∈ s.inputs, x.ofEnvironment = true)
    (h : Machine.step s = .next t) (hticks : t.ticks = s.ticks) : WatchWaits needed n last t := by
  obtain ⟨hf, rfl⟩ := hs
  exact ⟨step_watch_of_seen hx hf h, hticks⟩

/-- An interrupt-driven delay beside which only pulses come. -/
def WatchHangs (needed n : Nat) (last : Word) (s : State) : Prop :=
  (∀ x ∈ s.inputs, x.pulseOrResume = true) ∧ WatchWaits needed n last s

theorem WatchHangs.step (hs : WatchHangs needed n last s) :
    ∃ t, step s = .next t ∧ WatchHangs needed n last t := by
  obtain ⟨hx, hwaits⟩ := hs
  obtain ⟨t, h⟩ := step_completes_of_pulses hx
  have hticks : t.ticks = s.ticks := by
    simp [step_ticks_of_noReset (noReset_of_pulses hx) h, runsHandler_of_pulses hx h]
  exact ⟨t, h, pulses_of_step hx h, hwaits.step (ofEnvironment_of_pulses hx) h hticks⟩

/-- Settles O56: each step completes and leaves the delay at the counter's value. -/
theorem interruptDelayHangsWithoutHandlerRuns : Obligations.InterruptDelayHangsWithoutHandlerRuns := by
  intro k needed n s hx hn hf
  have hrest : watchRest needed n s.ticks = [.watch needed n s.ticks] := if_neg hn.ne
  obtain ⟨t, ht, -, hft, hticks⟩ :=
    runSteps_completes (fun _ => WatchHangs.step) ⟨hx, hf.trans hrest.symm, rfl⟩ k
  exact ⟨t, ht, hft.trans hrest, hticks⟩

/-! ### The needs of the interrupt-driven delay (R104, R137) -/

/-- One of the needs is unmet, and the inputs do not change that. -/
def NeedUnmet (s : State) : Prop :=
  s.cfg.handlerWired = false ∨ (s.gie = false ∧ Input.gie true ∉ s.inputs) ∨
    (s.irqPending = false ∧ (s.tickint = false ∨ CannotWrap s))

/-- A handler runs only with a request pending and GIE = 1 (R86). -/
theorem enabled_of_runsHandler (h : step s = .next t) (hh : runsHandler s = true) :
    s.irqPending = true ∧ s.gie = true := by
  obtain ⟨i, rest, ht, hi⟩ | ⟨p, ps, rest, ht, -⟩ | ⟨⟨-, -, -, hno⟩, -⟩ := step_next_kinds h
  · obtain rfl : i = .irqTake := by simpa [runsHandler_of_run ht] using hh
    exact exec_irqTake_enabled (s := { s with inputs := rest }) hi
  · obtain ⟨-, -, -, hno⟩ := nextIs_of_goOn ht
    simp [hno] at hh
  · simp [hno] at hh

/-- With a need unmet the Tick Counter stands still. -/
theorem NeedUnmet.ticks (hs : NeedUnmet s) (hx : ∀ x ∈ s.inputs, x.noReset = true) (h : step s = .next t) :
    t.ticks = s.ticks := by
  rw [step_ticks_of_noReset hx h, if_neg]
  rintro ⟨hh, hw⟩
  obtain ⟨hirq, hgie⟩ := enabled_of_runsHandler h hh
  simp [NeedUnmet, hw, hirq, hgie] at hs

/-- A need that is unmet stays unmet beside the delay: the parameters do not change, GIE is not set, and no
request is made. -/
theorem NeedUnmet.step (hs : NeedUnmet s) (hx : ∀ x ∈ s.inputs, x.noReset = true)
    (hf : s.foreground = watchRest needed n last) (h : step s = .next t) : NeedUnmet t := by
  have henv := ofEnvironment_of_noReset hx
  have hin := step_environment_inputs henv h
  obtain hw | ⟨hgie, hset⟩ | ⟨hirq, hno⟩ := hs
  · exact .inl (by rw [parametersAreConstant s t h, hw])
  · refine .inr (.inl ⟨?_, fun hmem => hset (hin hmem)⟩)
    obtain hkeep | ⟨b, hins, hb⟩ := step_gie h
    · rw [hkeep, hgie]
    · rw [hb]
      by_contra htrue
      simp [hins, htrue] at hset
  · have hcontrol := step_watch_sameControl hx hf h
    have hti : t.tickint = s.tickint := by
      obtain ⟨-, hti, -⟩ := hcontrol
      exact hti
    refine .inr (.inr ⟨?_, hno.imp hti.trans (·.mono hcontrol hin)⟩)
    obtain hoff | hno := hno
    · simp [step_irqPending h, hoff, hirq]
    · simp [step_irqPending h, hno.wrapsNext henv h, hirq]

/-- An interrupt-driven delay that a need unmet keeps waiting. -/
def WatchStuck (needed n : Nat) (last : Word) (s : State) : Prop :=
  (∀ x ∈ s.inputs, x.noReset = true) ∧ NeedUnmet s ∧ WatchWaits needed n last s

theorem WatchStuck.step (hs : WatchStuck needed n last s) (h : step s = .next t) : WatchStuck needed n last t := by
  obtain ⟨hx, hneed, hwaits⟩ := hs
  have hf := hwaits.1
  exact ⟨noReset_of_step hx h, hneed.step hx hf h,
    hwaits.step (ofEnvironment_of_noReset hx) h (hneed.ticks hx h)⟩

/-- Settles O57: the unmet need stays unmet, so the counter stands still and the delay waits. -/
theorem interruptDelayNeedsEveryCondition : Obligations.InterruptDelayNeedsEveryCondition := by
  intro k needed n s t hx hn hf hneed h
  have hrest : watchRest needed n s.ticks = [.watch needed n s.ticks] := if_neg hn.ne
  have hunmet : NeedUnmet s := hneed.imp_right (Or.imp_right (And.imp_right or_left_comm.mp))
  obtain ⟨-, -, hft, hticks⟩ :=
    runSteps_invariant (fun _ _ => WatchStuck.step) ⟨hx, hunmet, hf.trans hrest.symm, rfl⟩ h
  exact ⟨hft.trans hrest, hticks⟩

end Sys2Proof.Machine
